-- ==== Sys2Proof/Word.lean ====
section
/-! DEFINITION. The word of the Intcode core and its range (spec/00_scope.md R6, R11). -/

namespace Sys2Proof

/-- One word: a signed two's-complement integer of `W = 64` bits (R6, decision D1).  Every memory
cell, operand, input value, output value and the instruction pointer is one of these. -/
abbrev Word := BitVec 64

/-- `WMIN`, the least value of a word (R6). -/
abbrev wmin : Int := -9223372036854775808

/-- `WMAX`, the greatest value of a word (R6). -/
abbrev wmax : Int := 9223372036854775807

/-- `fits(v)`: the mathematical integer `v` is the value of some word (R11). -/
abbrev Fits (v : Int) : Prop := wmin ≤ v ∧ v ≤ wmax

end Sys2Proof
end

