-- ==== Sys2Proof/Syntax.lean ====
section
/-! DEFINITION. The instructions of the Intcode core and the names they are built from
(spec/30_encoding.md R55 to R72, spec/60_exceptions.md R102). -/

namespace Sys2Proof

/-- The two operand addressing modes (R57). -/
inductive Mode where
  | position
  | immediate
deriving DecidableEq, Repr

/-- What an instruction does with a parameter: obtain its value, or write to the cell it names
(R12, R61). -/
inductive Role where
  | read
  | write
deriving DecidableEq, Repr

/-- A parameter: "a pair (addressing mode, raw integer)" (R12, R70). -/
structure Param where
  mode : Mode
  raw  : Word
deriving DecidableEq, Repr

/-- The nine instruction kinds, named apart from their operands (R2, R70, R75). -/
inductive Op where
  | add
  | multiply
  | input
  | output
  | jumpIfTrue
  | jumpIfFalse
  | lessThan
  | equals
  | halt
deriving DecidableEq, Repr

/-- A set of recognised instruction kinds, the parameter `OPSET` (R8). -/
abbrev OpSet := List Op

/-- The five fault kinds (R102).  A step that meets one enters the `FAULTED` state with the kind in
`ERR`; it is an ordinary next state of the machine. -/
inductive FaultKind where
  | outOfBounds
  | unknownOpcode
  | inputExhausted
  | reservedMode
  | overflow
deriving DecidableEq, Repr

/-- A decoded instruction: one constructor per row of the opcode table, its parameters in the order
of R61.  `dst` is the write parameter, whose raw word is the address written (R58). -/
inductive Instr where
  | add (p1 p2 dst : Param)
  | multiply (p1 p2 dst : Param)
  | input (dst : Param)
  | output (p1 : Param)
  | jumpIfTrue (p1 p2 : Param)
  | jumpIfFalse (p1 p2 : Param)
  | lessThan (p1 p2 dst : Param)
  | equals (p1 p2 dst : Param)
  | halt
deriving DecidableEq, Repr

/-- The field `kind` of the instruction record (R70). -/
def Instr.op : Instr → Op
  | .add _ _ _ => .add
  | .multiply _ _ _ => .multiply
  | .input _ => .input
  | .output _ => .output
  | .jumpIfTrue _ _ => .jumpIfTrue
  | .jumpIfFalse _ _ => .jumpIfFalse
  | .lessThan _ _ _ => .lessThan
  | .equals _ _ _ => .equals
  | .halt => .halt

/-- The parameters of the instruction record, in order (R70). -/
def Instr.params : Instr → List Param
  | .add p1 p2 dst => [p1, p2, dst]
  | .multiply p1 p2 dst => [p1, p2, dst]
  | .input dst => [dst]
  | .output p1 => [p1]
  | .jumpIfTrue p1 p2 => [p1, p2]
  | .jumpIfFalse p1 p2 => [p1, p2]
  | .lessThan p1 p2 dst => [p1, p2, dst]
  | .equals p1 p2 dst => [p1, p2, dst]
  | .halt => []

/-- The write parameter of an instruction, where it has one (R61). -/
def Instr.dest? : Instr → Option Param
  | .add _ _ dst => some dst
  | .multiply _ _ dst => some dst
  | .input dst => some dst
  | .output _ => none
  | .jumpIfTrue _ _ => none
  | .jumpIfFalse _ _ => none
  | .lessThan _ _ dst => some dst
  | .equals _ _ dst => some dst
  | .halt => none

end Sys2Proof
end

