-- ==== Sys2Proof/Config.lean ====
section
/-! DEFINITION. The implementation parameters of spec/00_scope.md R6 to R9 at the values this
hardware takes.  `W = 64` is the width of `Word`; `INPUT_EMPTY = fault` is the only policy the spec
lets a model implement (U7) and is written into the meaning of Input. -/

namespace Sys2Proof

/-- The parameter `OVF`: what Add and Multiply do with a result outside the word range (R9, R86). -/
inductive OverflowPolicy where
  | fault
  | wrap
deriving DecidableEq, Repr

/-- `OPSET`: this hardware recognises all nine base opcodes (R8). -/
def Config.opset : OpSet :=
  [.add, .multiply, .input, .output, .jumpIfTrue, .jumpIfFalse, .lessThan, .equals, .halt]

/-- `OVF = fault` on this hardware (R9, R86, decision D2). -/
def Config.ovf : OverflowPolicy := .fault

/-- `MEM_DEPTH`.  DESIGN CHOICE (log entry 3): the spec leaves it OPEN and lets a model take the upper
bound `2^(W-1) - 1` itself (R7). -/
def Config.memDepth : Nat := 9223372036854775807

/-- `INQ_INIT` of the state `State.reset`.  DESIGN CHOICE (log entry 4): the spec leaves it OPEN, any
finite sequence of words with length 0 allowed (R9); `State.construct` takes every other. -/
def Config.inqInit : List Word := []

end Sys2Proof
end

