-- ==== Sys2Proof/WellFormed.lean ====
section
/-! DEFINITION. The instruction records a decoder can hand to the Executor
(spec/30_encoding.md R58, R66, R69). -/

namespace Sys2Proof

/-- The kind of the instruction is registered in `OPSET` (R8, R66). -/
def Instr.registered (ops : OpSet) (i : Instr) : Bool := decide (i.op ∈ ops)

/-- A write parameter is always `Position` (R58). -/
def Instr.destIsPosition (i : Instr) : Bool :=
  match i.dest? with
  | none => true
  | some d => decide (d.mode = .position)

/-- Well-formed under `OPSET = ops`: both checks pass. -/
abbrev Instr.WellFormed (ops : OpSet) (i : Instr) : Prop :=
  i.registered ops = true ∧ i.destIsPosition = true

end Sys2Proof
end

