-- ==== Sys2Proof/Decode.lean ====
section
/-! DEFINITION. The decoder on a sequence of words, and after it the encoder
(spec/30_encoding.md).  The decoder is total: it answers an instruction with the words after it, or
one of the fault kinds `unknownOpcode`, `reservedMode`, `outOfBounds` (the words end too early). -/

namespace Sys2Proof

/-! ### The opcode map (R55, R61) -/

/-- The base opcode of each kind (R61). -/
def Op.base : Op → Nat
  | .add => 1
  | .multiply => 2
  | .input => 3
  | .output => 4
  | .jumpIfTrue => 5
  | .jumpIfFalse => 6
  | .lessThan => 7
  | .equals => 8
  | .halt => 99

/-- The kind a base opcode selects; `none` for 0 and 9 to 98 (R61, R66). -/
def Op.ofBase? (n : Nat) : Option Op :=
  if n = 1 then some .add
  else if n = 2 then some .multiply
  else if n = 3 then some .input
  else if n = 4 then some .output
  else if n = 5 then some .jumpIfTrue
  else if n = 6 then some .jumpIfFalse
  else if n = 7 then some .lessThan
  else if n = 8 then some .equals
  else if n = 99 then some .halt
  else none

/-- The roles of the parameters, in order (R61). -/
def Op.roles : Op → List Role
  | .add | .multiply | .lessThan | .equals => [.read, .read, .write]
  | .jumpIfTrue | .jumpIfFalse => [.read, .read]
  | .input => [.write]
  | .output => [.read]
  | .halt => []

/-- `n`, the number of operand words (R55). -/
def Op.arity (o : Op) : Nat := o.roles.length

/-- The length of the instruction in words (R55). -/
def Op.length (o : Op) : Nat := 1 + o.arity

/-! ### Splitting the opcode word (R56 to R60, R65 to R68) -/

/-- `digit_k(w) = floor(w / 10^k) mod 10`, used on non-negative words only (R10). -/
def digit (k : Nat) (w : Word) : Nat := w.toNat / 10 ^ k % 10

/-- The base opcode of a non-negative opcode word (R56). -/
def baseOf (w : Word) : Nat := w.toNat % 100

/-- The mode of a parameter from its role and its mode digit: 0 and 1 as in R57, 2 to 9 reserved
(R65), and a write parameter's digit not looked at (R58). -/
def Role.modeOf (r : Role) (d : Nat) : Except FaultKind Mode :=
  match r with
  | .write => .ok .position
  | .read =>
    if d = 0 then .ok .position
    else if d = 1 then .ok .immediate
    else .error .reservedMode

/-- The modes of the parameters from parameter `k` on; parameter `k` has the digit of weight
`10^(k+1)`, and the digits are tested in order (R56, R65). -/
def modesFrom (w : Word) (k : Nat) : List Role → Except FaultKind (List Mode)
  | [] => .ok []
  | r :: rs => do
    let m ← r.modeOf (digit (k + 1) w)
    let ms ← modesFrom w (k + 1) rs
    .ok (m :: ms)

/-- What the opcode word alone says: the kind and the mode of each parameter. -/
structure Head where
  op    : Op
  modes : List Mode
deriving DecidableEq, Repr

/-- The decoding of the opcode word under `OPSET = ops`, in the order of R68. -/
def decodeHead (ops : OpSet) (w : Word) : Except FaultKind Head :=
  if w.toInt < 0 then .error .unknownOpcode
  else
    match Op.ofBase? (baseOf w) with
    | none => .error .unknownOpcode
    | some op =>
      if op ∈ ops then do
        let ms ← modesFrom w 1 op.roles
        .ok ⟨op, ms⟩
      else .error .unknownOpcode

/-! ### The instruction record (R69, R70) -/

/-- The instruction of a kind with the given parameters; `none` if their number is not its arity. -/
def Op.assemble? : Op → List Param → Option Instr
  | .add, [p1, p2, dst] => some (.add p1 p2 dst)
  | .multiply, [p1, p2, dst] => some (.multiply p1 p2 dst)
  | .input, [dst] => some (.input dst)
  | .output, [p1] => some (.output p1)
  | .jumpIfTrue, [p1, p2] => some (.jumpIfTrue p1 p2)
  | .jumpIfFalse, [p1, p2] => some (.jumpIfFalse p1 p2)
  | .lessThan, [p1, p2, dst] => some (.lessThan p1 p2 dst)
  | .equals, [p1, p2, dst] => some (.equals p1 p2 dst)
  | .halt, [] => some .halt
  | _, _ => none

/-- Pair each mode with its operand word; too few operand words is a fetch past the last word
(R69, R103 cause 2). -/
def Head.build (h : Head) (raws : List Word) : Except FaultKind Instr :=
  match h.op.assemble? (List.zipWith Param.mk h.modes raws) with
  | some i => .ok i
  | none => .error .outOfBounds

/-- Decode the instruction at the front of a sequence of words under `OPSET = ops`; the answer holds
the words after it (R55, R69). -/
def decode (ops : OpSet) : List Word → Except FaultKind (Instr × List Word)
  | [] => .error .outOfBounds
  | w :: rest => do
    let h ← decodeHead ops w
    let i ← h.build (rest.take h.op.arity)
    .ok (i, rest.drop h.op.arity)

/-! ### The encoder (R56, R59, R61) -/

/-- The mode digit of a mode (R57). -/
def Mode.digit : Mode → Nat
  | .position => 0
  | .immediate => 1

/-- The mode digits of the parameters from parameter `k` on, each at its weight (R56). -/
def digitsFrom (k : Nat) : List Param → Nat
  | [] => 0
  | p :: ps => p.mode.digit * 10 ^ (k + 1) + digitsFrom (k + 1) ps

/-- The opcode word of an instruction, with 0 for every ignored digit (R59, R63). -/
def Instr.opcodeWord (i : Instr) : Word := BitVec.ofNat 64 (i.op.base + digitsFrom 1 i.params)

/-- The words of an instruction: the opcode word, then the raw words in parameter order (R55, R59). -/
def encode (i : Instr) : List Word := i.opcodeWord :: i.params.map Param.raw

/-! ### The host's numbering of an instruction's bits -/

/-- The 256 bits numbered from bit 0 of the first word, as four 64-bit words; bits from `nbits` on
are 0. -/
def tableWords (nbits w : Nat) : List Word :=
  let v := w % 2 ^ nbits
  [BitVec.ofNat 64 v, BitVec.ofNat 64 (v / 2 ^ 64), BitVec.ofNat 64 (v / 2 ^ 128),
    BitVec.ofNat 64 (v / 2 ^ 192)]

/-- The instruction the decoder reads from an instruction whose bits are `w`. -/
def decodeTableWord (nbits w : Nat) : Option Instr :=
  match decode Config.opset (tableWords nbits w) with
  | .ok (i, _) => some i
  | .error _ => none

end Sys2Proof
end

