-- ==== Sys2Proof/Machine/State.lean ====
section
/-! DEFINITION. The state of the Intcode core (spec/10_state.md), the reasons a step can stop, and
the state right after reset. -/

namespace Sys2Proof.Machine

/-- `ST`, the run state (R19).  The value 3 is reserved and never taken, so it has no constructor. -/
inductive RunState where
  | active
  | halted
  | faulted
deriving DecidableEq, Repr

/-- `MEM` as plain data: pairs of a cell index and the word in it, indexes strictly rising, no pair
holding the word 0.  A cell below `LEN` that has no pair holds 0; log entry 1 says why the unit is a
word and why 0 is not a guess. -/
abbrev Memory := List (Nat × Word)

/-- Everything the machine holds between two steps (R13 to R32).  `DP` and `IR` exist only inside one
step (R24): they are the running pointer and the result of `State.decodeAt`. -/
structure State where
  /-- `MEM` (R14). -/
  mem : Memory
  /-- `LEN`, the number of addressable cells (R15). -/
  len : Nat
  /-- `IP`, one signed word (R16). -/
  ip : Word
  /-- `ST` (R19). -/
  st : RunState
  /-- `ERR`; `none` is the code 0, `None` (R26). -/
  err : Option FaultKind
  /-- `INQ`, head first (R22). -/
  inq : List Word
  /-- `OUT`, oldest first (R23). -/
  out : List Word
deriving DecidableEq, Repr

/-- Reasons to stop without a next state.  It has no constructor: every failure the spec describes
is the fault entry of R113, a next state with `ST = FAULTED`, so nobody raises one of these.  Safe:
no behaviour of the machine is left out. -/
inductive Fault where
deriving DecidableEq, Repr

/-- Reasons to refuse an instruction. -/
inductive Refusal where
  /-- An instruction that has no meaning yet would answer this from its arm of `exec`, under its
  mnemonic.  Safe: nothing can be claimed of it.  No arm does so now. -/
  | notModelled (mnemonic : String)
deriving DecidableEq, Repr

/-- The state after `construct` with the empty program, no word being placed by reset itself, and
the inputs `Config.inqInit` (R32, R128, R132; log entry 4). -/
def State.reset : State where
  mem := []
  len := 0
  ip := 0
  st := .active
  err := none
  inq := Config.inqInit
  out := []

end Sys2Proof.Machine
end

