-- ==== Sys2Proof/Machine/Ops.lean ====
section
/-! DEFINITION. The named operations on memory and on the registers, and fault entry. -/

namespace Sys2Proof.Machine

/-! ### Memory as a canonical list -/

/-- `M[i]`: the word in cell `i` (R11). -/
def Memory.read : Memory → Nat → Word
  | [], _ => 0
  | (a, v) :: m, i => if a = i then v else Memory.read m i

/-- Put a pair in its place, over the pair of the same index if there is one. -/
def Memory.put (i : Nat) (v : Word) : Memory → Memory
  | [] => [(i, v)]
  | (a, u) :: m =>
    if a < i then (a, u) :: Memory.put i v m
    else if a = i then (i, v) :: m
    else (i, v) :: (a, u) :: m

/-- Remove the pair of an index. -/
def Memory.remove (i : Nat) (m : Memory) : Memory := m.filter fun c => decide (c.1 ≠ i)

/-- `M[i] <- v` (R11, R39); writing 0 removes the pair. -/
def Memory.write (m : Memory) (i : Nat) (v : Word) : Memory :=
  if v = 0 then Memory.remove i m else Memory.put i v m

/-- The cells `i`, `i + 1`, … hold these words in order (R31: `MEM[i] = program[i]`). -/
def Memory.ofWordsFrom (i : Nat) : List Word → Memory
  | [] => []
  | v :: vs => if v = 0 then Memory.ofWordsFrom (i + 1) vs else (i, v) :: Memory.ofWordsFrom (i + 1) vs

/-- The canonical form: indexes strictly rising, no pair holding 0. -/
abbrev Memory.wf (m : Memory) : Prop :=
  m.Pairwise (fun c d => c.1 < d.1) ∧ ∀ c ∈ m, c.2 ≠ 0

/-! ### Registers and channels -/

/-- `IP <- target` (R76). -/
def State.setIp (target : Word) (s : State) : State := { s with ip := target }

/-- `IP <- a + 1 + n`: go on past the words of an instruction of kind `o` (R17, R76). -/
def State.advance (o : Op) (s : State) : State := s.setIp (s.ip + BitVec.ofNat 64 o.length)

/-- Replace the contents of memory; `LEN` is fixed (R15, R39). -/
def State.setMem (m : Memory) (s : State) : State := { s with mem := m }

/-- `INQ <- q` (R22). -/
def State.setInq (q : List Word) (s : State) : State := { s with inq := q }

/-- `OUT <- OUT ++ [v]` (R23). -/
def State.emit (v : Word) (s : State) : State := { s with out := s.out ++ [v] }

/-- `ST <- HALTED` (R100). -/
def State.enterHalted (s : State) : State := { s with st := .halted }

/-! ### Fault entry

There is no return from a fault to define beside it: `FAULTED` is absorbing and only `construct`
leaves it (R116, R78). -/

/-- `raise K` (R11, R113): `ST <- FAULTED`, `ERR <- K`, everything else kept, `IP` being still the
address of the failing instruction. -/
def State.raise (k : FaultKind) (s : State) : State := { s with st := .faulted, err := some k }

/-- End of a step: the state the instruction's routine made, or fault entry from the state `s` that
stood before it wrote anything (R74, R114). -/
def State.settle (s : State) (r : Except FaultKind State) :
    Host.Outcome State Fault Refusal :=
  match r with
  | .ok t => .next t
  | .error k => .next (s.raise k)

end Sys2Proof.Machine
end

