-- ==== Sys2Proof/Machine/Flags.lean ====
section
/-! DEFINITION. What stands in for flags: the machine has none (R20).  The overflow law of Add and
Multiply, the truth words the comparisons write and the conditions the jumps test. -/

namespace Sys2Proof.Machine

/-- The overflow law (R86): an exact result that fits is stored as it is; one that does not is the
fault `overflow` under `OVF = fault`, or its low 64 bits under `OVF = wrap`. -/
def narrow (policy : OverflowPolicy) (v : Int) : Except FaultKind Word :=
  if Fits v then .ok (BitVec.ofInt 64 v)
  else
    match policy with
    | .fault => .error .overflow
    | .wrap => .ok (BitVec.ofInt 64 v)

/-- The exact sum, narrowed (R85). -/
def sumWord (x y : Word) : Except FaultKind Word := narrow Config.ovf (x.toInt + y.toInt)

/-- The exact signed product, narrowed (R87). -/
def productWord (x y : Word) : Except FaultKind Word := narrow Config.ovf (x.toInt * y.toInt)

/-- The word 1 for a comparison that holds, 0 for one that does not (R99). -/
def truthWord (holds : Bool) : Word := if holds then 1 else 0

/-- The signed comparison of LessThan, the first parameter on the left (R97). -/
def lessThanWord (x y : Word) : Word := truthWord (decide (x.toInt < y.toInt))

/-- The comparison of Equals (R98). -/
def equalsWord (x y : Word) : Word := truthWord (decide (x = y))

/-- JumpIfTrue fires on any word but 0 (R93). -/
def firesOnTrue (c : Word) : Bool := decide (c ≠ 0)

/-- JumpIfFalse fires on the word 0 only (R94). -/
def firesOnFalse (c : Word) : Bool := decide (c = 0)

end Sys2Proof.Machine
end

