-- ==== Sys2Proof/Machine/Operands.lean ====
section
/-! DEFINITION. The three operations of the Memory block (spec/20_memory.md R38 to R40) and the two
shapes of routine that several instructions share. -/

namespace Sys2Proof.Machine

/-- The only check on an address: `0 <= addr < LEN`, signed (R38, R45). -/
def State.InBounds (s : State) (addr : Word) : Prop := 0 ≤ addr.toInt ∧ addr.toInt < s.len
deriving Decidable

/-- `MemRead(addr, 1)` (R38). -/
def State.memRead (s : State) (addr : Word) : Except FaultKind Word :=
  if s.InBounds addr then .ok (Memory.read s.mem addr.toNat) else .error .outOfBounds

/-- `MemWrite(addr, 1, v)` (R39). -/
def State.memWrite (s : State) (addr v : Word) : Except FaultKind State :=
  if s.InBounds addr then .ok (s.setMem (Memory.write s.mem addr.toNat v)) else .error .outOfBounds

/-- `Resolve(mode, raw)` of a read parameter (R40). -/
def State.resolve (s : State) (p : Param) : Except FaultKind Word :=
  match p.mode with
  | .immediate => .ok p.raw
  | .position => s.memRead p.raw

/-- The address a write parameter names: its raw word, whatever its mode (R41, R58). -/
def writeAddr (dst : Param) : Word := dst.raw

/-- The routine of Add, Multiply, LessThan and Equals: resolve the first parameter, then the second,
compute, write (R48, R80), and go on to the next instruction. -/
def State.binary (o : Op) (f : Word → Word → Except FaultKind Word) (p1 p2 dst : Param)
    (s : State) : Except FaultKind State := do
  let x ← s.resolve p1
  let y ← s.resolve p2
  let r ← f x y
  let t ← s.memWrite (writeAddr dst) r
  .ok (t.advance o)

/-- The routine of the two jumps: resolve the condition; only a jump that fires resolves its target,
which becomes `IP` whole and unchecked (R80, R95). -/
def State.jump (o : Op) (fires : Word → Bool) (p1 p2 : Param) (s : State) :
    Except FaultKind State := do
  let c ← s.resolve p1
  if fires c then
    let t ← s.resolve p2
    .ok (s.setIp t)
  else
    .ok (s.advance o)

end Sys2Proof.Machine
end

