-- ==== Sys2Proof/Machine/Arithmetic.lean ====
section
/-! DEFINITION. Add and Multiply (spec/41_arithmetic.md). -/

namespace Sys2Proof.Machine

/-- `Exec_Add` (R85). -/
def execAdd (p1 p2 dst : Param) (s : State) : Host.Outcome State Fault Refusal :=
  s.settle (s.binary .add sumWord p1 p2 dst)

/-- `Exec_Multiply` (R87). -/
def execMultiply (p1 p2 dst : Param) (s : State) : Host.Outcome State Fault Refusal :=
  s.settle (s.binary .multiply productWord p1 p2 dst)

end Sys2Proof.Machine
end

