-- ==== Sys2Proof/Machine/Compare.lean ====
section
/-! DEFINITION. LessThan and Equals (spec/44_compare.md). -/

namespace Sys2Proof.Machine

/-- `Exec_LessThan` (R97). -/
def execLessThan (p1 p2 dst : Param) (s : State) : Host.Outcome State Fault Refusal :=
  s.settle (s.binary .lessThan (fun x y => .ok (lessThanWord x y)) p1 p2 dst)

/-- `Exec_Equals` (R98). -/
def execEquals (p1 p2 dst : Param) (s : State) : Host.Outcome State Fault Refusal :=
  s.settle (s.binary .equals (fun x y => .ok (equalsWord x y)) p1 p2 dst)

end Sys2Proof.Machine
end

