-- ==== Sys2Proof/Machine/Control.lean ====
section
/-! DEFINITION. Halt (spec/45_halt.md). -/

namespace Sys2Proof.Machine

/-- `Exec_Halt` (R100): `ST <- HALTED`, and `IP` goes past the Halt word (R101). -/
def execHalt (s : State) : Host.Outcome State Fault Refusal :=
  .next (s.enterHalted.advance .halt)

end Sys2Proof.Machine
end

