-- ==== Sys2Proof/Machine/InputOutput.lean ====
section
/-! DEFINITION. Input and Output (spec/42_input_output.md). -/

namespace Sys2Proof.Machine

/-- `Exec_Input` (R89): the empty queue faults first (R91); otherwise the head is removed before the
write is tried, and a write that faults leaves it removed (R90). -/
def execInput (dst : Param) (s : State) : Host.Outcome State Fault Refusal :=
  match s.inq with
  | [] => .next (s.raise .inputExhausted)
  | v :: rest =>
    (s.setInq rest).settle do
      let t ← (s.setInq rest).memWrite (writeAddr dst) v
      .ok (t.advance .input)

/-- `Exec_Output` (R92). -/
def execOutput (p1 : Param) (s : State) : Host.Outcome State Fault Refusal :=
  s.settle do
    let v ← s.resolve p1
    .ok ((s.emit v).advance .output)

end Sys2Proof.Machine
end

