-- ==== Sys2Proof/Machine/Jumps.lean ====
section
/-! DEFINITION. JumpIfTrue and JumpIfFalse (spec/43_jumps.md). -/

namespace Sys2Proof.Machine

/-- `Exec_JumpIfTrue` (R93). -/
def execJumpIfTrue (p1 p2 : Param) (s : State) : Host.Outcome State Fault Refusal :=
  s.settle (s.jump .jumpIfTrue firesOnTrue p1 p2)

/-- `Exec_JumpIfFalse` (R94). -/
def execJumpIfFalse (p1 p2 : Param) (s : State) : Host.Outcome State Fault Refusal :=
  s.settle (s.jump .jumpIfFalse firesOnFalse p1 p2)

end Sys2Proof.Machine
end

