-- ==== Sys2Proof/Machine/Dispatch.lean ====
section
/-! DEFINITION. The dispatch of spec/40_step_and_dispatch.md R74, R75: one arm per instruction. -/

namespace Sys2Proof.Machine

/-- The execute phase of one instruction. -/
def exec (i : Instr) (s : State) : Host.Outcome State Fault Refusal :=
  match i with
  | .add p1 p2 dst => Sys2Proof.Machine.execAdd p1 p2 dst s
  | .multiply p1 p2 dst => Sys2Proof.Machine.execMultiply p1 p2 dst s
  | .input dst => Sys2Proof.Machine.execInput dst s
  | .output p1 => Sys2Proof.Machine.execOutput p1 s
  | .jumpIfTrue p1 p2 => Sys2Proof.Machine.execJumpIfTrue p1 p2 s
  | .jumpIfFalse p1 p2 => Sys2Proof.Machine.execJumpIfFalse p1 p2 s
  | .lessThan p1 p2 dst => Sys2Proof.Machine.execLessThan p1 p2 dst s
  | .equals p1 p2 dst => Sys2Proof.Machine.execEquals p1 p2 dst s
  | .halt => Sys2Proof.Machine.execHalt s

end Sys2Proof.Machine
end

