-- ==== Sys2Proof/Machine/Fetch.lean ====
section
/-! DEFINITION. The Decoder over memory (spec/30_encoding.md R69 to R71), and placing an instruction
where the next step fetches it. -/

namespace Sys2Proof.Machine

/-- The internal register `IR` (R24, R70): the decoded instruction and `next`, the address of the
word after it.  It lives inside one step. -/
structure Decoded where
  instr : Instr
  next  : Word
deriving DecidableEq, Repr

/-- Fetch `n` operand words in order, the running pointer `DP` moving on by one after each (R24, R69);
the answer holds the words and the last value of `DP`. -/
def State.fetchOperands (s : State) (dp : Word) : Nat → Except FaultKind (List Word × Word)
  | 0 => .ok ([], dp)
  | n + 1 => do
    let v ← s.memRead dp
    let (vs, last) ← s.fetchOperands (dp + 1) n
    .ok (v :: vs, last)

/-- `Decode(a)` under `OPSET = ops` (R69): fetch the opcode word, split it, fetch the operand words. -/
def State.decodeAt (ops : OpSet) (s : State) (a : Word) : Except FaultKind Decoded := do
  let w ← s.memRead a
  let h ← decodeHead ops w
  let (raws, last) ← s.fetchOperands (a + 1) h.op.arity
  let i ← h.build raws
  .ok ⟨i, last⟩

/-- Write words to consecutive cells from cell `i` on. -/
def Memory.writeAll (m : Memory) (i : Nat) : List Word → Memory
  | [] => m
  | v :: vs => Memory.writeAll (Memory.write m i v) (i + 1) vs

/-- Place the words where the next step fetches: at `IP` if all their addresses are cell indexes of
a memory of `MEM_DEPTH` cells, else at 0, and `IP` with them; `LEN` grows to hold them, and a machine that is not
`ACTIVE` becomes so.  This stands for the host's `construct`, the only way a program gets in (R31). -/
def State.placeWords (s : State) (ws : List Word) : State :=
  let a : Word := if 0 ≤ s.ip.toInt ∧ s.ip.toInt + ws.length ≤ Config.memDepth then s.ip else 0
  { s with
    mem := Memory.writeAll s.mem a.toNat ws
    len := max s.len (a.toNat + ws.length)
    ip := a
    st := .active
    err := none }

end Sys2Proof.Machine
end

