-- ==== Sys2Proof/Machine/Step.lean ====
section
/-! DEFINITION. The step (spec/40_step_and_dispatch.md R74, R78). -/

namespace Sys2Proof.Machine

/-- One step of a machine whose `OPSET` is `ops` (R8, R126).  Outside `ACTIVE` it changes nothing
(R78); a fault of the decode phase enters `FAULTED` with `IP` kept; otherwise the decoded
instruction is executed. -/
def stepUnder (ops : OpSet) (s : State) : Host.Outcome State Fault Refusal :=
  match s.st with
  | .halted => .next s
  | .faulted => .next s
  | .active =>
    match s.decodeAt ops s.ip with
    | .error k => .next (s.raise k)
    | .ok ir => exec ir.instr s

/-- One step of this hardware, whose `OPSET` is the full set (R8). -/
def step (s : State) : Host.Outcome State Fault Refusal := stepUnder Config.opset s

/-- The state with the instruction of the bits `w` placed where `step` fetches next. -/
def State.withFetchWord (s : State) (nbits w : Nat) : State := s.placeWords (tableWords nbits w)

end Sys2Proof.Machine
end

