-- ==== Sys2Proof/Machine/Boundary.lean ====
section
/-! DEFINITION. The operations of the host on the machine (spec/10_state.md R31 to R36) and the loop
`execute` (spec/40_step_and_dispatch.md R77). -/

namespace Sys2Proof.Machine

/-! ### Construction -/

/-- The word of an integer, refused outside `WMIN..WMAX` (R31, R130). -/
def wordOf? (v : Int) : Option Word := if Fits v then some (BitVec.ofInt 64 v) else none

/-- The words of a list of integers, refused if one of them is. -/
def wordsOf? : List Int → Option (List Word)
  | [] => some []
  | v :: vs =>
    match wordOf? v, wordsOf? vs with
    | some w, some ws => some (w :: ws)
    | _, _ => none

/-- The state after construction from a program and inputs that are words already (R32). -/
def State.load (program inputs : List Word) : State where
  mem := Memory.ofWordsFrom 0 program
  len := program.length
  ip := 0
  st := .active
  err := none
  inq := inputs
  out := []

/-- `construct(program, inputs)` with `MEM_DEPTH = depth` (R31): `none` where no machine can be
constructed, the program being too long or a value no word (decision D20). -/
def State.construct (depth : Nat) (program inputs : List Int) : Option State :=
  if program.length ≤ depth then
    match wordsOf? program, wordsOf? inputs with
    | some ws, some vs => some (State.load ws vs)
    | _, _ => none
  else none

/-! ### Observation -/

/-- The port code of `ST`, two bits (R19). -/
def RunState.code : RunState → BitVec 2
  | .active => 0
  | .halted => 1
  | .faulted => 2

/-- The port code of `ERR`, three bits (R26, R102). -/
def errCode : Option FaultKind → BitVec 3
  | none => 0
  | some .outOfBounds => 1
  | some .unknownOpcode => 2
  | some .inputExhausted => 3
  | some .reservedMode => 4
  | some .overflow => 5

/-- What the host may read between steps, apart from single cells (R34). -/
structure Observation where
  st  : BitVec 2
  err : BitVec 3
  ip  : Word
  len : Nat
  out : List Word
  inq : List Word
deriving DecidableEq, Repr

/-- `observe` (R34). -/
def State.observe (s : State) : Observation where
  st := s.st.code
  err := errCode s.err
  ip := s.ip
  len := s.len
  out := s.out
  inq := s.inq

/-- A host read of cell `i`; outside `0..LEN-1` it is refused and returns nothing (R34). -/
def State.observeCell (s : State) (i : Int) : Option Word :=
  if 0 ≤ i ∧ i < s.len then some (Memory.read s.mem i.toNat) else none

/-- The whole memory snapshot, the cells `0` to `LEN - 1` in order (R34, R83). -/
def State.snapshot (s : State) : List Word := (List.range s.len).map (Memory.read s.mem)

/-! ### Input, and the moves of the host -/

/-- `push_input(v)` (R35): while `ACTIVE` the word goes to the tail of `INQ`; otherwise nothing
changes. -/
def State.pushInput (v : Word) (s : State) : State :=
  match s.st with
  | .active => s.setInq (s.inq ++ [v])
  | .halted => s
  | .faulted => s

/-- Everything that can change the machine: its own step and the two writing host operations (R35,
R110).  Observation changes nothing and is no move. -/
inductive Move where
  | step
  | pushInput (v : Word)
  | construct (program inputs : List Int)
deriving DecidableEq, Repr

/-- The effect of a move; a refused construction changes nothing (U16). -/
def State.move (s : State) : Move → State
  | .step =>
    match Sys2Proof.Machine.step s with
    | .next t => t
    | .fault _ => s
    | .refused _ => s
  | .pushInput v => s.pushInput v
  | .construct program inputs => (State.construct Config.memDepth program inputs).getD s

/-! ### The loop -/

/-- What `execute()` returns: success, or the error kind with the failing instruction pointer (R36,
R77, R83). -/
inductive ExecuteResult where
  | success
  | failure (err : Option FaultKind) (ip : Word)
deriving DecidableEq, Repr

/-- `Execute()` (R77) for at most `fuel` steps, with the final state; `none` if the run is still
going (R79). -/
def execute : Nat → State → Option (ExecuteResult × State)
  | fuel, s =>
    match s.st with
    | .halted => some (.success, s)
    | .faulted => some (.failure s.err s.ip, s)
    | .active =>
      match fuel with
      | 0 => none
      | k + 1 =>
        match step s with
        | .next t => execute k t
        | .fault _ => none
        | .refused _ => none

end Sys2Proof.Machine
end

