-- ==== Sys2Proof/Safety.lean ====
section
/-! DEFINITION. The terms claims are made in: the state invariant (R27), a safe run, the fault
priority table (R111) as a list of tests, and the cells an instruction may read (R43). -/

namespace Sys2Proof.Machine

/-! ### The invariant -/

/-- What holds of the state between any two steps: memory is in canonical form and inside `LEN`,
`LEN` is at most `MEM_DEPTH` (R15), and `ERR` is not `None` exactly when `ST = FAULTED` (R27). -/
structure State.Inv (s : State) : Prop where
  memCanonical : Memory.wf s.mem
  memInLen     : ∀ c ∈ s.mem, c.1 < s.len
  lenInDepth   : s.len ≤ Config.memDepth
  errIffFault  : s.err ≠ none ↔ s.st = .faulted

/-! ### Safe runs -/

/-- No fault has happened. -/
def State.Safe (s : State) : Prop := s.st ≠ .faulted

/-- The state after a number of steps; a step always has a next state in this model. -/
def stepN : Nat → State → State
  | 0, s => s
  | k + 1, s => stepN k (s.move .step)

/-- The first `k` steps meet no fault. -/
def State.SafeFor (k : Nat) (s : State) : Prop := ∀ j, j ≤ k → (stepN j s).Safe

/-! ### The priority table of R111

The tests below are written from the table, apart from the decoder and the routines: `firstFault`
is what R111 says a step of an `ACTIVE` machine raises. -/

/-- The word `k` places after the opcode word. -/
def State.wordAt (s : State) (k : Nat) : Word :=
  Memory.read s.mem (s.ip + BitVec.ofNat 64 k).toNat

/-- Parameter `k` (from 1) is a read parameter of the kind. -/
def Op.reads (o : Op) (k : Nat) : Bool := decide (o.roles[k - 1]? = some .read)

/-- Parameter `k` (from 1) is a write parameter of the kind. -/
def Op.writes (o : Op) (k : Nat) : Bool := decide (o.roles[k - 1]? = some .write)

/-- The mode digit of parameter `k` of the instruction at `IP`. -/
def State.modeDigit (s : State) (k : Nat) : Nat := digit (k + 1) (s.wordAt 0)

/-- Read parameter `k` is Position with a bad address. -/
def State.badRead (s : State) (o : Op) (k : Nat) : Bool :=
  Op.reads o k && decide (s.modeDigit k = 0) && decide (¬ s.InBounds (s.wordAt k))

/-- The value of read parameter `k`, where its address is good. -/
def State.readValue (s : State) (k : Nat) : Word :=
  if s.modeDigit k = 1 then s.wordAt k else Memory.read s.mem (s.wordAt k).toNat

/-- The second parameter is read: always, but for a jump that does not fire. -/
def State.secondIsRead (s : State) : Op → Bool
  | .jumpIfTrue => decide (s.readValue 1 ≠ 0)
  | .jumpIfFalse => decide (s.readValue 1 = 0)
  | _ => true

/-- The exact result of Add or Multiply does not fit a word. -/
def State.resultOverflows (s : State) : Op → Bool
  | .add => decide (¬ Fits ((s.readValue 1).toInt + (s.readValue 2).toInt))
  | .multiply => decide (¬ Fits ((s.readValue 1).toInt * (s.readValue 2).toInt))
  | _ => false

/-- The ten tests of R111, in its order, for an instruction of kind `o`. -/
def State.faultTests (ops : OpSet) (s : State) (o : Op) : List (Bool × FaultKind) :=
  [ (decide (¬ s.InBounds s.ip), .outOfBounds),
    (decide ((s.wordAt 0).toInt < 0), .unknownOpcode),
    (decide (o ∉ ops), .unknownOpcode),
    ((Op.reads o 1 && decide (2 ≤ s.modeDigit 1)) || (Op.reads o 2 && decide (2 ≤ s.modeDigit 2)),
      .reservedMode),
    ((List.range o.arity).any fun k => decide (¬ s.InBounds (s.ip + BitVec.ofNat 64 (k + 1))),
      .outOfBounds),
    (decide (o = .input ∧ s.inq = []), .inputExhausted),
    (s.badRead o 1, .outOfBounds),
    (s.badRead o 2 && s.secondIsRead o, .outOfBounds),
    (s.resultOverflows o, .overflow),
    ((List.range o.arity).any fun k =>
      Op.writes o (k + 1) && decide (¬ s.InBounds (s.wordAt (k + 1))), .outOfBounds) ]

/-- The tests where the base opcode names no instruction: only the first three can be met. -/
def State.noKindTests (s : State) : List (Bool × FaultKind) :=
  [ (decide (¬ s.InBounds s.ip), .outOfBounds), (true, .unknownOpcode) ]

/-- The first fault met in the order of R111. -/
def State.firstFault (ops : OpSet) (s : State) : Option FaultKind :=
  let tests :=
    match Op.ofBase? (baseOf (s.wordAt 0)) with
    | some o => s.faultTests ops o
    | none => s.noKindTests
  (tests.find? fun c => c.1).map fun c => c.2

/-! ### The cells the execute phase may read (R43) -/

/-- The cell a read parameter reads: its raw word if it is Position, none if it is Immediate. -/
def readCell (p : Param) : List Word :=
  match p.mode with
  | .position => [p.raw]
  | .immediate => []

/-- The target's cell, for a jump that fires in this state. -/
def State.targetCell (fires : Word → Bool) (p1 p2 : Param) (s : State) : List Word :=
  match s.resolve p1 with
  | .ok c => if fires c then readCell p2 else []
  | .error _ => []

/-- The column "Operand reads" of the table of R43. -/
def State.operandCells (s : State) : Instr → List Word
  | .add p1 p2 _ => readCell p1 ++ readCell p2
  | .multiply p1 p2 _ => readCell p1 ++ readCell p2
  | .input _ => []
  | .output p1 => readCell p1
  | .jumpIfTrue p1 p2 => readCell p1 ++ s.targetCell (fun c => decide (c ≠ 0)) p1 p2
  | .jumpIfFalse p1 p2 => readCell p1 ++ s.targetCell (fun c => decide (c = 0)) p1 p2
  | .lessThan p1 p2 _ => readCell p1 ++ readCell p2
  | .equals p1 p2 _ => readCell p1 ++ readCell p2
  | .halt => []

/-! ### Which instruction can raise which fault (R112) -/

/-- The fault kinds in the row of a kind in the table of R112, after its opcode word is fetched. -/
def Op.mayRaise : Op → List FaultKind
  | .add => [.outOfBounds, .reservedMode, .overflow]
  | .multiply => [.outOfBounds, .reservedMode, .overflow]
  | .input => [.outOfBounds, .inputExhausted]
  | .output => [.outOfBounds, .reservedMode]
  | .jumpIfTrue => [.outOfBounds, .reservedMode]
  | .jumpIfFalse => [.outOfBounds, .reservedMode]
  | .lessThan => [.outOfBounds, .reservedMode]
  | .equals => [.outOfBounds, .reservedMode]
  | .halt => []

end Sys2Proof.Machine
end

