-- ==== Sys2Proof/Certificates/Slice0/Obligations.lean ====
section
/-! DEFINITION. The statements about the model, for the provers.  Each docstring names the rule of the
spec the statement follows; no statement rests on a reset value or a policy the model chose unless
its docstring says so. -/

section

open Sys2Proof Sys2Proof.Machine

/-! ### Encoding -/

/-- Decoding the words of a well-formed instruction, whatever words follow, gives the instruction
back and leaves the words that follow (R55, R56, R59, R69). -/
def Obligations.DecodeEncodeRoundTrip : Prop :=
  ∀ (ops : OpSet) (i : Instr) (rest : List Word), i.WellFormed ops →
    decode ops (encode i ++ rest) = .ok (i, rest)

/-- What a successful decoding says of the words: the instruction is well-formed, its raw words are
the words after the opcode word, and the opcode word is non-negative with the base opcode and the
mode digits of the read parameters at their weights (R55 to R58, R61, R69). -/
def Obligations.DecodeInversion : Prop :=
  ∀ (ops : OpSet) (ws rest : List Word) (i : Instr), decode ops ws = .ok (i, rest) →
    i.WellFormed ops ∧
    ∃ w, ws = w :: (i.params.map Param.raw ++ rest) ∧ 0 ≤ w.toInt ∧ w.toNat % 100 = i.op.base ∧
      ∀ k p, i.params[k]? = some p → i.op.roles[k]? = some .read →
        w.toNat / 10 ^ (k + 2) % 10 = p.mode.digit

/-- The table of R68: negative; base opcode not in the set; a reserved digit on a read parameter;
otherwise the instruction of R61 with the modes of R57.  Parameter `k + 1` has role `roles[k]` and
the digit of weight `10^(k+2)`. -/
def Obligations.OpcodeWordSpace : Prop :=
  ∀ (ops : OpSet) (w : Word),
    (w.toInt < 0 → decodeHead ops w = .error .unknownOpcode) ∧
    (0 ≤ w.toInt → (∀ o ∈ ops, o.base ≠ w.toNat % 100) →
      decodeHead ops w = .error .unknownOpcode) ∧
    (0 ≤ w.toInt → ∀ o ∈ ops, o.base = w.toNat % 100 →
      (∃ k, o.roles[k]? = some .read ∧ 2 ≤ w.toNat / 10 ^ (k + 2) % 10) →
      decodeHead ops w = .error .reservedMode) ∧
    (0 ≤ w.toInt → ∀ o ∈ ops, o.base = w.toNat % 100 →
      (∀ k, o.roles[k]? = some .read → w.toNat / 10 ^ (k + 2) % 10 < 2) →
      decodeHead ops w = .ok ⟨o, o.roles.mapIdx fun k r =>
        if r = .read ∧ w.toNat / 10 ^ (k + 2) % 10 = 1 then .immediate else .position⟩)

/-- R67: two opcode words with the same base opcode and the same digits of read parameters decode
alike, whatever their other digits; with the three examples of the rule. -/
def Obligations.IgnoredDigits : Prop :=
  (∀ (ops : OpSet) (w u : Word), 0 ≤ w.toInt → 0 ≤ u.toInt → w.toNat % 100 = u.toNat % 100 →
    (∀ (o : Op) (k : Nat), o.base = w.toNat % 100 → o.roles[k]? = some .read →
      w.toNat / 10 ^ (k + 2) % 10 = u.toNat / 10 ^ (k + 2) % 10) →
    decodeHead ops w = decodeHead ops u) ∧
  decodeHead Config.opset 100099 = .ok ⟨.halt, []⟩ ∧
  decodeHead Config.opset 1000001 = .ok ⟨.add, [.position, .position, .position]⟩ ∧
  decodeHead Config.opset 20001 = .ok ⟨.add, [.position, .position, .position]⟩

/-- Words written out from the formats of R59, one per instruction, decode to the instruction they
stand for (R59, R61, R63). -/
def Obligations.WrittenOutWords : Prop :=
  decode Config.opset [1001, 4, 3, 4] =
    .ok (.add ⟨.position, 4⟩ ⟨.immediate, 3⟩ ⟨.position, 4⟩, []) ∧
  decode Config.opset [102, 7, 8, 9] =
    .ok (.multiply ⟨.immediate, 7⟩ ⟨.position, 8⟩ ⟨.position, 9⟩, []) ∧
  decode Config.opset [3, 16] = .ok (.input ⟨.position, 16⟩, []) ∧
  decode Config.opset [104, -17] = .ok (.output ⟨.immediate, -17⟩, []) ∧
  decode Config.opset [1105, -1, 9] = .ok (.jumpIfTrue ⟨.immediate, -1⟩ ⟨.immediate, 9⟩, []) ∧
  decode Config.opset [1006, 17, 13] = .ok (.jumpIfFalse ⟨.position, 17⟩ ⟨.immediate, 13⟩, []) ∧
  decode Config.opset [7, 17, 18, 19] =
    .ok (.lessThan ⟨.position, 17⟩ ⟨.position, 18⟩ ⟨.position, 19⟩, []) ∧
  decode Config.opset [108, 5, 6, 7] =
    .ok (.equals ⟨.immediate, 5⟩ ⟨.position, 6⟩ ⟨.position, 7⟩, []) ∧
  decode Config.opset [99, 104] = .ok (.halt, [104])

/-- Decoding at an address depends on the cells `a` to `a + n` alone (R71). -/
def Obligations.DecoderReadsOnlyItsWords : Prop :=
  ∀ (ops : OpSet) (s t : State) (a : Word) (ir : Decoded), s.decodeAt ops a = .ok ir →
    (∀ j ≤ ir.instr.op.arity,
      t.memRead (a + BitVec.ofNat 64 j) = s.memRead (a + BitVec.ofNat 64 j)) →
    t.decodeAt ops a = .ok ir

/-- R18: with `LEN` at most `MEM_DEPTH`, the address after an instruction is `a + 1 + n` without
leaving the word range, wherever the instruction starts, and at most `LEN`; and with `IP = LEN` the
fetch faults. -/
def Obligations.SequentialAdvanceDoesNotWrap : Prop :=
  (∀ (ops : OpSet) (s : State) (a : Word) (ir : Decoded), s.len ≤ Config.memDepth →
    s.decodeAt ops a = .ok ir →
    ir.instr.op.arity ≤ 3 ∧ ir.next = a + BitVec.ofNat 64 ir.instr.op.length ∧
    ir.next.toInt = a.toInt + 1 + ir.instr.op.arity ∧ ir.next.toInt ≤ s.len) ∧
  (∀ s : State, s.st = .active → s.ip.toInt = s.len → step s = .next (s.raise .outOfBounds))

/-! ### Memory -/

/-- R38: the signed bounds check of a read, and the word read. -/
def Obligations.MemReadBounds : Prop :=
  ∀ (s : State) (a : Word),
    (a.toInt < 0 ∨ (s.len : Int) ≤ a.toInt → s.memRead a = .error .outOfBounds) ∧
    (0 ≤ a.toInt → a.toInt < s.len → s.memRead a = .ok (Memory.read s.mem a.toNat))

/-- R39: a write out of bounds faults; one in bounds is read back, leaves every other cell as it was,
resizes nothing and touches no register or channel. -/
def Obligations.MemWriteOverwritesOneCell : Prop :=
  ∀ (s : State) (a v : Word),
    (a.toInt < 0 ∨ (s.len : Int) ≤ a.toInt → s.memWrite a v = .error .outOfBounds) ∧
    (0 ≤ a.toInt → a.toInt < s.len → ∃ t, s.memWrite a v = .ok t ∧ t.memRead a = .ok v ∧
      (∀ b, b ≠ a → t.memRead b = s.memRead b) ∧ t.setMem s.mem = s)

/-- R40: an Immediate parameter is its raw word in every state, a Position parameter one read of the
cell its raw word names. -/
def Obligations.ResolveRule : Prop :=
  ∀ (s : State) (raw : Word),
    s.resolve ⟨.immediate, raw⟩ = .ok raw ∧ s.resolve ⟨.position, raw⟩ = s.memRead raw

/-- Equal memories are equal data: of two states in which the invariant holds, with the same `LEN`,
if every cell reads the same the memories are the same list (the canonical form of the model's own
choosing, log entry 1; R14). -/
def Obligations.CanonicalMemory : Prop :=
  ∀ s t : State, s.Inv → t.Inv → s.len = t.len → (∀ a, s.memRead a = t.memRead a) → s.mem = t.mem

/-! ### The step -/

/-- When the machine is active and the words at `IP` decode to an instruction, the step is the
execution of that instruction in that very state: `IP` still holds `a`, and the instruction's own
effect moves it (R17, R74). -/
def Obligations.StepRunsDecodedInstruction : Prop :=
  ∀ (s : State) (w : Word) (raws : List Word) (i : Instr), s.st = .active →
    s.memRead s.ip = .ok w →
    (∀ j v, raws[j]? = some v → s.memRead (s.ip + BitVec.ofNat 64 (j + 1)) = .ok v) →
    decode Config.opset (w :: raws) = .ok (i, []) → step s = exec i s

/-- R78: in `HALTED` and `FAULTED` a step changes nothing, and `execute` returns at once with the
result of that state. -/
def Obligations.EndedMachineDoesNothing : Prop :=
  ∀ s : State, s.st ≠ .active → step s = .next s ∧
    ∀ fuel, execute fuel s =
      some (if s.st = .halted then .success else .failure s.err s.ip, s)

/-- Only construction leaves `HALTED` and `FAULTED`: no sequence of steps and input pushes changes
an ended machine (R78, R115 to R117). -/
def Obligations.EndedStatesAbsorbing : Prop :=
  ∀ (moves : List Move) (s : State), s.st ≠ .active →
    (∀ m ∈ moves, ∀ program inputs, m ≠ .construct program inputs) → moves.foldl State.move s = s

/-- A step of an active machine has exactly three outcomes, and `HALTED` is that of a decoded Halt
and of nothing else (R73, R100). -/
def Obligations.StepOutcomes : Prop :=
  ∀ s : State, s.st = .active → s.err = none → ∃ t, step s = .next t ∧
    ((t.st = .active ∧ t.err = none) ∨ (t.st = .halted ∧ t.err = none) ∨
      (t.st = .faulted ∧ ∃ k, t.err = some k)) ∧
    (t.st = .halted ↔ ∃ next, s.decodeAt Config.opset s.ip = .ok ⟨.halt, next⟩)

/-- R111: what a step raises is the first fault met in the order of the table, `State.firstFault`
being the table's ten tests; and where no test is met the step faults nowhere. -/
def Obligations.FaultPriority : Prop :=
  ∀ (ops : OpSet) (s : State), s.st = .active → s.err = none → ∃ t, stepUnder ops s = .next t ∧
    t.err = s.firstFault ops ∧ (t.st = .faulted ↔ (s.firstFault ops).isSome)

/-- R113: fault entry.  `ST`, `ERR` and `IP` as the rule says, memory, `OUT` and `LEN` unchanged, and
`INQ` unchanged but after Input's `OutOfBounds`, which has removed its head; then control goes
nowhere, and `execute` returns the failure. -/
def Obligations.FaultEntry : Prop :=
  ∀ (ops : OpSet) (s t : State), s.st = .active → stepUnder ops s = .next t → t.st = .faulted →
    (∃ k, t.err = some k) ∧ t.ip = s.ip ∧ t.mem = s.mem ∧ t.out = s.out ∧ t.len = s.len ∧
    (t.inq = s.inq ∨ ∃ dst next v, s.decodeAt ops s.ip = .ok ⟨.input dst, next⟩ ∧
      s.inq = v :: t.inq ∧ ¬ s.InBounds (writeAddr dst) ∧ t.err = some .outOfBounds) ∧
    stepUnder ops t = .next t ∧ ∀ fuel, execute fuel t = some (.failure t.err t.ip, t)

/-- R76: `IP` after an instruction that completes, row by row, and after one that faults. -/
def Obligations.IpLaw : Prop :=
  ∀ (i : Instr) (s t : State), s.st = .active → exec i s = .next t →
    (t.st = .faulted → t.ip = s.ip) ∧
    (t.st ≠ .faulted →
      match i with
      | .add _ _ _ | .multiply _ _ _ | .lessThan _ _ _ | .equals _ _ _ => t.ip = s.ip + 4
      | .input _ | .output _ => t.ip = s.ip + 2
      | .halt => t.ip = s.ip + 1
      | .jumpIfTrue p1 p2 => ∃ c, s.resolve p1 = .ok c ∧
          (c = 0 → t.ip = s.ip + 3) ∧ (c ≠ 0 → s.resolve p2 = .ok t.ip)
      | .jumpIfFalse p1 p2 => ∃ c, s.resolve p1 = .ok c ∧
          (c ≠ 0 → t.ip = s.ip + 3) ∧ (c = 0 → s.resolve p2 = .ok t.ip))

/-- Which instruction can raise which fault kind, once its opcode word is fetched: no kind outside
its row of the table of R112, and every kind in the row in some state. -/
def Obligations.FaultTable : Prop :=
  (∀ (s t : State) (w : Word) (o : Op) (k : FaultKind), s.st = .active → s.err = none →
    s.memRead s.ip = .ok w → 0 ≤ w.toInt → w.toNat % 100 = o.base →
    step s = .next t → t.err = some k → k ∈ Op.mayRaise o) ∧
  (∀ (o : Op) (k : FaultKind), k ∈ Op.mayRaise o → ∃ (s t : State) (w : Word), s.st = .active ∧
    s.err = none ∧ s.memRead s.ip = .ok w ∧ 0 ≤ w.toInt ∧ w.toNat % 100 = o.base ∧
    step s = .next t ∧ t.err = some k)

/-- An opcode word that is refused faults on its own, whatever words follow it and whether or not
they exist: negative (R60), base opcode not in the set (R66), reserved digit on a read parameter
(R65). -/
def Obligations.RefusedOpcodeWords : Prop :=
  ∀ (ops : OpSet) (s : State) (w : Word), s.st = .active → s.memRead s.ip = .ok w →
    (w.toInt < 0 → stepUnder ops s = .next (s.raise .unknownOpcode)) ∧
    (0 ≤ w.toInt → (∀ o ∈ ops, o.base ≠ w.toNat % 100) →
      stepUnder ops s = .next (s.raise .unknownOpcode)) ∧
    (0 ≤ w.toInt → ∀ o ∈ ops, o.base = w.toNat % 100 →
      (∃ k, o.roles[k]? = some .read ∧ 2 ≤ w.toNat / 10 ^ (k + 2) % 10) →
      stepUnder ops s = .next (s.raise .reservedMode))

/-- A bad `IP` faults at the fetch of the opcode word, and an instruction cut off by the end of memory
at the fetch of an operand word (R103 causes 1 and 2). -/
def Obligations.FetchFaults : Prop :=
  ∀ (ops : OpSet) (s : State), s.st = .active →
    (s.ip.toInt < 0 ∨ (s.len : Int) ≤ s.ip.toInt →
      stepUnder ops s = .next (s.raise .outOfBounds)) ∧
    (∀ w h, s.memRead s.ip = .ok w → decodeHead ops w = .ok h →
      (∃ j, 1 ≤ j ∧ j ≤ h.op.arity ∧ ¬ s.InBounds (s.ip + BitVec.ofNat 64 j)) →
      stepUnder ops s = .next (s.raise .outOfBounds))

/-- A machine with a smaller `OPSET` faults with `UnknownOpcode` on the instructions left out and
steps like this hardware on the others (R8, R126). -/
def Obligations.RestrictedOpset : Prop :=
  ∀ (ops : OpSet) (s : State) (w : Word) (o : Op), s.st = .active → s.memRead s.ip = .ok w →
    0 ≤ w.toInt → w.toNat % 100 = o.base →
    (o ∉ ops → stepUnder ops s = .next (s.raise .unknownOpcode)) ∧
    (o ∈ ops → stepUnder ops s = step s)

/-- A store is seen by the very next fetch: after a write to cell `a`, a step at `a` decodes the word
written, by itself if it is refused and with the operand words that follow it otherwise (R51,
R134). -/
def Obligations.StoreSeenByFetch : Prop :=
  ∀ (s t : State) (a v : Word), s.st = .active → s.memWrite a v = .ok t →
    (∀ k, decodeHead Config.opset v = .error k →
      step (t.setIp a) = .next ((t.setIp a).raise k)) ∧
    (∀ raws i, (∀ j u, raws[j]? = some u → t.memRead (a + BitVec.ofNat 64 (j + 1)) = .ok u) →
      decode Config.opset (v :: raws) = .ok (i, []) → step (t.setIp a) = exec i (t.setIp a))

/-- What a step does depends on the instruction's own words and on the cells its Position parameters
name, and on no other cell: with another memory that agrees on those, the step does the same to
every register and channel, and a cell it changes gets the same word (R43). -/
def Obligations.StepReadsOnlyItsCells : Prop :=
  ∀ (s : State) (m : Memory) (ir : Decoded), s.st = .active →
    s.decodeAt Config.opset s.ip = .ok ir →
    (∀ j ≤ ir.instr.op.arity, (s.setMem m).memRead (s.ip + BitVec.ofNat 64 j) =
      s.memRead (s.ip + BitVec.ofNat 64 j)) →
    (∀ a ∈ s.operandCells ir.instr, (s.setMem m).memRead a = s.memRead a) →
    ∃ t u, step s = .next t ∧ step (s.setMem m) = .next u ∧ u.setMem [] = t.setMem [] ∧
      ∀ b, (t.memRead b = s.memRead b ∧ u.memRead b = (s.setMem m).memRead b) ∨
        t.memRead b = u.memRead b

/-! ### Invariants -/

/-- What reset leaves: the state of R32 for the empty program; that the program is empty and which
inputs there are is the model's own choice (log entries 2 and 4). -/
def Obligations.ResetState : Prop :=
  State.reset.ip = 0 ∧ State.reset.st = .active ∧ State.reset.err = none ∧ State.reset.out = [] ∧
    State.reset.len = 0 ∧ State.reset.inq = Config.inqInit ∧ ∀ a, State.reset.memRead a = .error .outOfBounds

/-- The invariant holds at reset. -/
def Obligations.ResetHasInv : Prop := State.reset.Inv

/-- Every step from a state with the invariant gives a state with the invariant, under every
`OPSET`: memory keeps its canonical form inside `LEN`, `LEN` stays within `MEM_DEPTH` (R15), and
`ERR` is not `None` exactly when `ST = FAULTED` (R27). -/
def Obligations.StepKeepsInv : Prop :=
  ∀ (ops : OpSet) (s t : State), s.Inv → stepUnder ops s = .next t → t.Inv

/-- So do all moves of the host, construction among them (R31, R35). -/
def Obligations.MovesKeepInv : Prop :=
  ∀ (moves : List Move) (s : State), s.Inv → (moves.foldl State.move s).Inv

/-- R27: `ERR` against `ST`; `LEN` fixed; `OUT` growing at its end; `INQ` shrinking at its head by
the machine and growing at its tail by the host; and after a fault `IP` at the instruction that
faulted. -/
def Obligations.StateInvariants : Prop :=
  (∀ s t : State, (s.err ≠ none ↔ s.st = .faulted) → step s = .next t →
    (t.err ≠ none ↔ t.st = .faulted) ∧ t.len = s.len ∧ s.out <+: t.out ∧ t.inq <:+ s.inq ∧
    (s.st = .active → t.st = .faulted → t.ip = s.ip)) ∧
  (∀ (s : State) (v : Word), (s.pushInput v).setInq s.inq = s ∧ s.inq <+: (s.pushInput v).inq)

/-- Along any sequence of steps and input pushes `OUT` only grows at its end and `LEN` stays (R23,
R15, R115). -/
def Obligations.OutAppendOnly : Prop :=
  ∀ (moves : List Move) (s : State),
    (∀ m ∈ moves, ∀ program inputs, m ≠ .construct program inputs) →
    s.out <+: (moves.foldl State.move s).out ∧ (moves.foldl State.move s).len = s.len

/-- A run is safe exactly when no test of R111 is met by any active state on it (R109, R111, R113). -/
def Obligations.SafeRunIffNoTestMet : Prop :=
  ∀ (k : Nat) (s : State), s.Inv → s.Safe →
    (s.SafeFor k ↔ ∀ j < k, (stepN j s).st = .active →
      (stepN j s).firstFault Config.opset = none)

/-! ### Results of the instructions -/

/-- Add completes when both operands resolve, the exact sum fits and the destination is in bounds: the
exact sum is stored, `IP` goes on by 4, nothing else changes (R85, R86). -/
def Obligations.AddResult : Prop :=
  ∀ (p1 p2 dst : Param) (s : State) (x y : Word), s.resolve p1 = .ok x → s.resolve p2 = .ok y →
    Fits (x.toInt + y.toInt) → s.InBounds (writeAddr dst) →
    ∃ r : Word, r.toInt = x.toInt + y.toInt ∧ exec (.add p1 p2 dst) s =
      .next ((s.setMem (Memory.write s.mem (writeAddr dst).toNat r)).setIp (s.ip + 4))

/-- Multiply completes under the same conditions with the exact signed product (R87, R86). -/
def Obligations.MultiplyResult : Prop :=
  ∀ (p1 p2 dst : Param) (s : State) (x y : Word), s.resolve p1 = .ok x → s.resolve p2 = .ok y →
    Fits (x.toInt * y.toInt) → s.InBounds (writeAddr dst) →
    ∃ r : Word, r.toInt = x.toInt * y.toInt ∧ exec (.multiply p1 p2 dst) s =
      .next ((s.setMem (Memory.write s.mem (writeAddr dst).toNat r)).setIp (s.ip + 4))

/-- R99: LessThan and Equals complete when both operands resolve and the destination is in bounds,
storing 1 where the comparison holds and 0 where it does not, the comparison of LessThan being
signed and strict with parameter 1 on the left (R97, R98). -/
def Obligations.ComparisonResults : Prop :=
  ∀ (p1 p2 dst : Param) (s : State) (x y : Word), s.resolve p1 = .ok x → s.resolve p2 = .ok y →
    s.InBounds (writeAddr dst) →
    exec (.lessThan p1 p2 dst) s = .next ((s.setMem (Memory.write s.mem (writeAddr dst).toNat
      (if x.toInt < y.toInt then 1 else 0))).setIp (s.ip + 4)) ∧
    exec (.equals p1 p2 dst) s = .next ((s.setMem (Memory.write s.mem (writeAddr dst).toNat
      (if x = y then 1 else 0))).setIp (s.ip + 4))

/-- R86: a sum or product that does not fit faults with `Overflow` and writes nothing, whatever the
destination. -/
def Obligations.OverflowFaults : Prop :=
  ∀ (p1 p2 dst : Param) (s : State) (x y : Word), s.resolve p1 = .ok x → s.resolve p2 = .ok y →
    (¬ Fits (x.toInt + y.toInt) → exec (.add p1 p2 dst) s = .next (s.raise .overflow)) ∧
    (¬ Fits (x.toInt * y.toInt) → exec (.multiply p1 p2 dst) s = .next (s.raise .overflow))

/-- The laws of R88: commutativity; 0 and 1 as operands; operands of opposite sign never overflow a
sum; times -1 is the negation, but for `WMIN`, which overflows. -/
def Obligations.ArithmeticLaws : Prop :=
  (∀ (p1 p2 dst : Param) (s : State),
    exec (.add p1 p2 dst) s = exec (.add p2 p1 dst) s ∧
    exec (.multiply p1 p2 dst) s = exec (.multiply p2 p1 dst) s) ∧
  (∀ (x : Word) (dst : Param) (s : State), s.InBounds (writeAddr dst) →
    let stored (r : Word) :=
      (s.setMem (Memory.write s.mem (writeAddr dst).toNat r)).setIp (s.ip + 4)
    exec (.add ⟨.immediate, x⟩ ⟨.immediate, 0⟩ dst) s = .next (stored x) ∧
    exec (.multiply ⟨.immediate, x⟩ ⟨.immediate, 0⟩ dst) s = .next (stored 0) ∧
    exec (.multiply ⟨.immediate, x⟩ ⟨.immediate, 1⟩ dst) s = .next (stored x) ∧
    (x.toInt ≠ wmin →
      exec (.multiply ⟨.immediate, x⟩ ⟨.immediate, -1⟩ dst) s = .next (stored (-x))) ∧
    (x.toInt = wmin →
      exec (.multiply ⟨.immediate, x⟩ ⟨.immediate, -1⟩ dst) s = .next (s.raise .overflow)) ∧
    (∀ y : Word, x.toInt < 0 → 0 ≤ y.toInt → ∃ r : Word, r.toInt = x.toInt + y.toInt ∧
      exec (.add ⟨.immediate, x⟩ ⟨.immediate, y⟩ dst) s = .next (stored r)))

/-- Input completes when a value is there and the destination is in bounds: the head of `INQ` goes to
the destination (R89). -/
def Obligations.InputResult : Prop :=
  ∀ (dst : Param) (s : State) (v : Word) (rest : List Word), s.inq = v :: rest →
    s.InBounds (writeAddr dst) → exec (.input dst) s =
      .next (((s.setInq rest).setMem (Memory.write s.mem (writeAddr dst).toNat v)).setIp (s.ip + 2))

/-- R90: with a bad destination the value is removed all the same, and then the step faults. -/
def Obligations.InputBadDestination : Prop :=
  ∀ (dst : Param) (s : State) (v : Word) (rest : List Word), s.inq = v :: rest →
    ¬ s.InBounds (writeAddr dst) →
    exec (.input dst) s = .next { s with inq := rest, st := .faulted, err := some .outOfBounds }

/-- R91: on an empty queue Input faults at once, whatever its destination. -/
def Obligations.InputEmpty : Prop :=
  ∀ (dst : Param) (s : State), s.inq = [] →
    exec (.input dst) s = .next { s with st := .faulted, err := some .inputExhausted }

/-- Output completes when its parameter resolves: the value is appended to `OUT` (R92). -/
def Obligations.OutputResult : Prop :=
  ∀ (p1 : Param) (s : State) (v : Word), s.resolve p1 = .ok v →
    exec (.output p1) s = .next { s with out := s.out ++ [v], ip := s.ip + 2 }

/-- JumpIfTrue completes on a condition of 0 without looking at its target, and on any other word,
negative ones included, when the target resolves; the target becomes `IP` whole (R93). -/
def Obligations.JumpIfTrueResult : Prop :=
  ∀ (p1 p2 : Param) (s : State),
    (s.resolve p1 = .ok 0 → exec (.jumpIfTrue p1 p2) s = .next (s.setIp (s.ip + 3))) ∧
    (∀ c target, s.resolve p1 = .ok c → c ≠ 0 → s.resolve p2 = .ok target →
      exec (.jumpIfTrue p1 p2) s = .next (s.setIp target))

/-- JumpIfFalse completes on a condition of 0 when the target resolves, and on any other word without
looking at its target (R94). -/
def Obligations.JumpIfFalseResult : Prop :=
  ∀ (p1 p2 : Param) (s : State),
    (∀ c, s.resolve p1 = .ok c → c ≠ 0 →
      exec (.jumpIfFalse p1 p2) s = .next (s.setIp (s.ip + 3))) ∧
    (∀ target, s.resolve p1 = .ok 0 → s.resolve p2 = .ok target →
      exec (.jumpIfFalse p1 p2) s = .next (s.setIp target))

/-- R95: a target that is no cell index is written into `IP` like any other, the jump completes, and
the next step faults at its fetch with `IP` equal to the target. -/
def Obligations.WildTarget : Prop :=
  ∀ (p1 p2 : Param) (s : State) (c target : Word), s.st = .active → s.resolve p1 = .ok c →
    s.resolve p2 = .ok target → target.toInt < 0 ∨ (s.len : Int) ≤ target.toInt →
    (c ≠ 0 → exec (.jumpIfTrue p1 p2) s = .next (s.setIp target)) ∧
    (c = 0 → exec (.jumpIfFalse p1 p2) s = .next (s.setIp target)) ∧
    step (s.setIp target) = .next ((s.setIp target).raise .outOfBounds)

/-- Halt completes in every state: `ST` becomes `HALTED`, `IP` goes past the Halt word even to `LEN`,
and memory, `ERR` and the channels are as they were (R100, R101). -/
def Obligations.HaltResult : Prop :=
  ∀ s : State, exec .halt s = .next { s with st := .halted, ip := s.ip + 1 }

/-- The `OutOfBounds` faults of the execute phase: a Position parameter with a bad address, the target
of a jump only if it fires, and a bad destination when everything before it was good; nothing is
written (R103 causes 3 and 4). -/
def Obligations.BadAddressFaults : Prop :=
  ∀ (p1 p2 dst : Param) (s : State),
    (p1.mode = .position → ¬ s.InBounds p1.raw →
      ∀ i ∈ [Instr.add p1 p2 dst, .multiply p1 p2 dst, .lessThan p1 p2 dst, .equals p1 p2 dst,
        .output p1, .jumpIfTrue p1 p2, .jumpIfFalse p1 p2],
        exec i s = .next (s.raise .outOfBounds)) ∧
    (∀ x, s.resolve p1 = .ok x → p2.mode = .position → ¬ s.InBounds p2.raw →
      (∀ i ∈ [Instr.add p1 p2 dst, .multiply p1 p2 dst, .lessThan p1 p2 dst, .equals p1 p2 dst],
        exec i s = .next (s.raise .outOfBounds)) ∧
      (x ≠ 0 → exec (.jumpIfTrue p1 p2) s = .next (s.raise .outOfBounds)) ∧
      (x = 0 → exec (.jumpIfFalse p1 p2) s = .next (s.raise .outOfBounds))) ∧
    (∀ x y, s.resolve p1 = .ok x → s.resolve p2 = .ok y → ¬ s.InBounds (writeAddr dst) →
      (Fits (x.toInt + y.toInt) → exec (.add p1 p2 dst) s = .next (s.raise .outOfBounds)) ∧
      (Fits (x.toInt * y.toInt) → exec (.multiply p1 p2 dst) s = .next (s.raise .outOfBounds)) ∧
      exec (.lessThan p1 p2 dst) s = .next (s.raise .outOfBounds) ∧
      exec (.equals p1 p2 dst) s = .next (s.raise .outOfBounds))

/-! ### Frames -/

/-- What Add, Multiply, LessThan, Equals and Input leave unchanged: every cell but the one their
destination names, `LEN`, `OUT`, `INQ` but for the head that Input takes, and `ST` and `ERR` but for
fault entry (R43, R113). -/
def Obligations.StoringFrame : Prop :=
  ∀ (p1 p2 dst : Param) (i : Instr) (s t : State),
    i ∈ [Instr.add p1 p2 dst, .multiply p1 p2 dst, .lessThan p1 p2 dst, .equals p1 p2 dst,
      .input dst] → exec i s = .next t →
    (∀ b, b ≠ writeAddr dst → t.memRead b = s.memRead b) ∧ t.len = s.len ∧ t.out = s.out ∧
    (t.inq = s.inq ∨ (i = .input dst ∧ ∃ v, s.inq = v :: t.inq)) ∧
    ((t.st = s.st ∧ t.err = s.err) ∨ (t.st = .faulted ∧ (∃ k, t.err = some k) ∧
      t.mem = s.mem))

/-- What Output, the jumps and Halt leave unchanged: every cell, `LEN`, `INQ`, `OUT` but for the word
Output appends, `ERR` but for fault entry, and `ST` but for fault entry and Halt (R43, R93, R94,
R100). -/
def Obligations.NonStoringFrame : Prop :=
  ∀ (p1 p2 : Param) (i : Instr) (s t : State),
    i ∈ [Instr.output p1, .jumpIfTrue p1 p2, .jumpIfFalse p1 p2, .halt] → exec i s = .next t →
    (∀ b, t.memRead b = s.memRead b) ∧ t.mem = s.mem ∧ t.len = s.len ∧ t.inq = s.inq ∧
    (t.out = s.out ∨ (i = .output p1 ∧ ∃ v, s.resolve p1 = .ok v ∧ t.out = s.out ++ [v])) ∧
    ((t.st = s.st ∧ t.err = s.err ∧ i ≠ .halt) ∨ (i = .halt ∧ t.st = .halted ∧ t.err = s.err) ∨
      (t.st = .faulted ∧ (∃ k, t.err = some k) ∧ t.out = s.out ∧ i ≠ .halt))

/-! ### The host interface -/

/-- The codes of `ST` and `ERR` on the status outputs, different for different values (R19, R26,
R102). -/
def Obligations.PortCodes : Prop :=
  RunState.code .active = 0 ∧ RunState.code .halted = 1 ∧ RunState.code .faulted = 2 ∧
  errCode none = 0 ∧ errCode (some .outOfBounds) = 1 ∧ errCode (some .unknownOpcode) = 2 ∧
  errCode (some .inputExhausted) = 3 ∧ errCode (some .reservedMode) = 4 ∧
  errCode (some .overflow) = 5

/-- An instruction placed by `State.withFetchWord` is the one the very next step runs, from every
state: the model's stand-in for a program load (log entry 2). -/
def Obligations.PlacedInstructionRuns : Prop :=
  ∀ (s : State) (nbits w : Nat) (i : Instr), decodeTableWord nbits w = some i →
    step (s.withFetchWord nbits w) = exec i (s.withFetchWord nbits w)

/-- R31 and R32: construction from a program of at most `MEM_DEPTH` values and inputs, all in the
word range, gives the state of R32; anything else is refused. -/
def Obligations.ConstructRule : Prop :=
  ∀ (depth : Nat) (program inputs : List Int), depth ≤ Config.memDepth →
    ((program.length ≤ depth ∧ (∀ v ∈ program, Fits v) ∧ ∀ v ∈ inputs, Fits v) →
      ∃ s, State.construct depth program inputs = some s ∧ s.len = program.length ∧ s.ip = 0 ∧
        s.st = .active ∧ s.err = none ∧ s.out = [] ∧ s.inq.map BitVec.toInt = inputs ∧
        ∀ i v, program[i]? = some v →
          ∃ w : Word, w.toInt = v ∧ s.memRead (BitVec.ofNat 64 i) = .ok w) ∧
    (¬ (program.length ≤ depth ∧ (∀ v ∈ program, Fits v) ∧ ∀ v ∈ inputs, Fits v) →
      State.construct depth program inputs = none)

/-- `push_input`: while the machine is active the word goes to the tail of `INQ`, and nothing else
changes; otherwise nothing changes at all (R35). -/
def Obligations.PushInputRule : Prop :=
  ∀ (s : State) (v : Word),
    (s.st = .active → s.pushInput v = { s with inq := s.inq ++ [v] }) ∧
    (s.st ≠ .active → s.pushInput v = s)

/-- What the host may read between steps, in any run state (R34): `ST` and `ERR` by their codes,
`IP`, `LEN`, the whole of `OUT` and the remaining `INQ`; a cell outside `0..LEN-1` is refused, one
inside reads as its word; the snapshot is the cells in order; and nothing of a state in which the
invariant holds is hidden, so that two such states with the same readings are the same (D15; their
memories as the model's canonical form has them, log entry 1). -/
def Obligations.ObserveRule : Prop :=
  ∀ s : State,
    (s.observe.st = s.st.code ∧ s.observe.err = errCode s.err ∧ s.observe.ip = s.ip ∧
      s.observe.len = s.len ∧ s.observe.out = s.out ∧ s.observe.inq = s.inq) ∧
    (∀ i : Int, i < 0 ∨ (s.len : Int) ≤ i → s.observeCell i = none) ∧
    (∀ a v : Word, s.memRead a = .ok v ↔ s.observeCell a.toInt = some v) ∧
    s.snapshot.length = s.len ∧
    (∀ i : Nat, s.snapshot[i]? = s.observeCell i) ∧
    ∀ t : State, s.Inv → t.Inv → s.observe = t.observe → s.snapshot = t.snapshot → s = t

/-- `execute` repeats the step while `ST = ACTIVE`: when it returns, the state is that of the first
step that left `ACTIVE`, the result is success after a Halt and the error kind with `IP` after a
fault, and more fuel changes nothing; and it does return, with that state, whenever the machine has
left `ACTIVE` within the fuel (R36, R77).  The loop itself has no bound; the fuel is the model's
(R79, log entry 9). -/
def Obligations.ExecuteRule : Prop :=
  ∀ (fuel : Nat) (s : State),
    (∀ (t : State) (r : ExecuteResult), execute fuel s = some (r, t) →
      t.st ≠ .active ∧ (t.st = .halted → r = .success) ∧
      (t.st = .faulted → r = .failure t.err t.ip) ∧
      (∃ k ≤ fuel, stepN k s = t ∧ ∀ j < k, (stepN j s).st = .active) ∧
      ∀ more, execute (fuel + more) s = some (r, t)) ∧
    ∀ k ≤ fuel, (stepN k s).st ≠ .active → ∃ r, execute fuel s = some (r, stepN k s)

end
end

