-- ==== Sys2Proof/Laws/Decode.lean ====
section
/-! SUPPORT. What the decoder can do, function by function, said once. -/

namespace Sys2Proof

/-! ### The opcode map -/

/-- A base opcode selects the kind it is the base opcode of, and no other number selects one. -/
theorem Op.ofBase?_eq_some {n : Nat} {o : Op} : Op.ofBase? n = some o ↔ n = o.base := by
  constructor
  · intro h
    unfold Op.ofBase? at h
    repeat' split at h
    all_goals first | (cases h; assumption) | cases h
  · rintro rfl
    cases o <;> rfl

theorem Op.ofBase?_eq_none {n : Nat} : Op.ofBase? n = none ↔ ∀ o : Op, o.base ≠ n := by
  rw [Option.eq_none_iff_forall_ne_some]
  exact forall_congr' fun o => by rw [ne_eq, Op.ofBase?_eq_some, eq_comm]

theorem Op.base_lt (o : Op) : o.base < 100 := by cases o <;> decide

theorem Op.arity_le (o : Op) : o.arity ≤ 3 := by cases o <;> decide

@[simp] theorem Op.length_eq (o : Op) : o.length = 1 + o.arity := rfl

/-! ### Modes -/

theorem Role.modeOf_error {r : Role} {d : Nat} {k : FaultKind} :
    r.modeOf d = .error k ↔ r = .read ∧ 2 ≤ d ∧ k = .reservedMode := by
  cases r with
  | write => simp [Role.modeOf]
  | read =>
    unfold Role.modeOf
    by_cases h0 : d = 0
    · simp [h0]
    · by_cases h1 : d = 1
      · simp [h1]
      · simp only [h0, h1, if_false, Except.error.injEq, true_and]
        constructor
        · rintro rfl
          exact ⟨by omega, rfl⟩
        · rintro ⟨-, rfl⟩
          rfl

/-- The mode of a parameter whose digit is not reserved. -/
def Role.modeFor (r : Role) (d : Nat) : Mode :=
  if r = .read ∧ d = 1 then .immediate else .position

theorem Role.modeOf_ok {r : Role} {d : Nat} {m : Mode} :
    r.modeOf d = .ok m ↔ ¬ (r = .read ∧ 2 ≤ d) ∧ m = r.modeFor d := by
  cases r with
  | write => simp [Role.modeOf, Role.modeFor, eq_comm]
  | read =>
    unfold Role.modeOf Role.modeFor
    by_cases h0 : d = 0
    · simp [h0, eq_comm]
    · by_cases h1 : d = 1
      · simp [h1, eq_comm]
      · have : 2 ≤ d := by omega
        simp [h0, h1, this]

/-- Decoding the modes faults exactly when some read parameter's digit is reserved. -/
theorem modesFrom_error {w : Word} {rs : List Role} {n : Nat} {k : FaultKind} :
    modesFrom w n rs = .error k ↔
      (∃ j, rs[j]? = some .read ∧ 2 ≤ digit (n + j + 1) w) ∧ k = .reservedMode := by
  induction rs generalizing n with
  | nil => simp [modesFrom]
  | cons r rs ih =>
    simp only [modesFrom, bind, Except.bind]
    cases hm : r.modeOf (digit (n + 1) w) with
    | error e =>
      obtain ⟨h1, h2, h3⟩ := Role.modeOf_error.1 hm
      simp only [Except.error.injEq]
      constructor
      · rintro rfl
        exact ⟨⟨0, by simp [h1], h2⟩, h3⟩
      · rintro ⟨-, rfl⟩
        exact h3
    | ok m =>
      have hn := (Role.modeOf_ok.1 hm).1
      have hrec : (∃ j, (r :: rs)[j]? = some Role.read ∧ 2 ≤ digit (n + j + 1) w) ↔
          ∃ j, rs[j]? = some Role.read ∧ 2 ≤ digit (n + 1 + j + 1) w := by
        constructor
        · rintro ⟨j, h1, h2⟩
          cases j with
          | zero => exact absurd ⟨by simpa using h1, h2⟩ hn
          | succ j => exact ⟨j, by simpa using h1, by rwa [show n + 1 + j = n + (j + 1) by omega]⟩
        · rintro ⟨j, h1, h2⟩
          exact ⟨j + 1, by simpa using h1, by rwa [show n + (j + 1) = n + 1 + j by omega]⟩
      rw [hrec, ← ih]
      cases modesFrom w (n + 1) rs <;> simp

/-- Otherwise it gives each parameter the mode of its digit. -/
theorem modesFrom_ok {w : Word} {rs : List Role} {n : Nat} {ms : List Mode} :
    modesFrom w n rs = .ok ms ↔
      (∀ j, rs[j]? = some .read → digit (n + j + 1) w < 2) ∧
        ms = rs.mapIdx fun j r => r.modeFor (digit (n + j + 1) w) := by
  induction rs generalizing n ms with
  | nil => simp [modesFrom, eq_comm]
  | cons r rs ih =>
    have hidx : (fun j r => Role.modeFor r (digit (n + (j + 1) + 1) w)) =
        fun j r => Role.modeFor r (digit (n + 1 + j + 1) w) := by
      funext j r
      rw [show n + (j + 1) = n + 1 + j by omega]
    have hdig : (∀ j, (r :: rs)[j]? = some Role.read → digit (n + j + 1) w < 2) ↔
        ¬ (r = .read ∧ 2 ≤ digit (n + 1) w) ∧
          ∀ j, rs[j]? = some Role.read → digit (n + 1 + j + 1) w < 2 := by
      constructor
      · intro h
        refine ⟨fun ⟨h1, h2⟩ => ?_, fun j hj => ?_⟩
        · have := h 0 (by simp [h1])
          simp only [Nat.add_zero] at this
          omega
        · have := h (j + 1) (by simpa using hj)
          rwa [show n + (j + 1) = n + 1 + j by omega] at this
      · rintro ⟨h0, h⟩ j hj
        cases j with
        | zero =>
          have hr : r = .read := by simpa using hj
          simp only [Nat.add_zero]
          by_contra hlt
          exact h0 ⟨hr, by omega⟩
        | succ j =>
          have := h j (by simpa using hj)
          rwa [show n + (j + 1) = n + 1 + j by omega]
    rw [List.mapIdx_cons, hidx, hdig]
    simp only [modesFrom, bind, Except.bind, Nat.add_zero]
    cases hm : r.modeOf (digit (n + 1) w) with
    | error e =>
      obtain ⟨h1, h2, h3⟩ := Role.modeOf_error.1 hm
      simp [h1, h2]
    | ok m =>
      obtain ⟨h1, rfl⟩ := Role.modeOf_ok.1 hm
      cases hms : modesFrom w (n + 1) rs with
      | error e =>
        simp only [reduceCtorEq, false_iff]
        rintro ⟨⟨-, h⟩, -⟩
        have := ih.2 ⟨h, rfl⟩
        rw [hms] at this
        cases this
      | ok ms' =>
        obtain ⟨h2, h3⟩ := ih.1 hms
        rw [← h3, and_iff_right (And.intro h1 h2)]
        simp only [Except.ok.injEq]
        exact eq_comm

/-! ### The opcode word -/

/-- Everything that makes an opcode word decode. -/
theorem decodeHead_ok {ops : OpSet} {w : Word} {h : Head} :
    decodeHead ops w = .ok h ↔
      ¬ w.toInt < 0 ∧ baseOf w = h.op.base ∧ h.op ∈ ops ∧ modesFrom w 1 h.op.roles = .ok h.modes := by
  obtain ⟨o, ms⟩ := h
  unfold decodeHead
  by_cases hw : w.toInt < 0
  · simp [hw]
  · simp only [hw, if_false, not_false_eq_true, true_and]
    cases ho : Op.ofBase? (baseOf w) with
    | none =>
      have := Op.ofBase?_eq_none.1 ho o
      simp only [reduceCtorEq, false_iff]
      exact fun h => this h.1.symm
    | some o' =>
      have hb := Op.ofBase?_eq_some.1 ho
      by_cases hin : o' ∈ ops
      · simp only [hin, if_true, bind, Except.bind]
        constructor
        · intro h
          cases hms : modesFrom w 1 o'.roles with
          | error e => rw [hms] at h; cases h
          | ok ms' => rw [hms] at h; cases h; exact ⟨hb, hin, hms⟩
        · rintro ⟨h1, h2, h3⟩
          have : o' = o := by
            have := Op.ofBase?_eq_some.2 h1
            rw [ho] at this
            exact Option.some.inj this
          subst this
          rw [h3]
      · simp only [hin, if_false, reduceCtorEq, false_iff]
        rintro ⟨h1, h2, -⟩
        have := Op.ofBase?_eq_some.2 h1
        rw [ho] at this
        exact hin (Option.some.inj this ▸ h2)

/-! ### The instruction record -/

theorem Instr.params_length (i : Instr) : i.params.length = i.op.arity := by cases i <;> rfl

/-- Assembling gives the one instruction with that kind and those parameters. -/
theorem Op.assemble?_eq_some {o : Op} {ps : List Param} {i : Instr} :
    o.assemble? ps = some i ↔ i.op = o ∧ i.params = ps := by
  constructor
  · intro h
    unfold Op.assemble? at h
    split at h <;> cases h <;> exact ⟨rfl, rfl⟩
  · rintro ⟨rfl, rfl⟩
    cases i <;> rfl

theorem Op.assemble?_of_length {o : Op} {ps : List Param} (h : ps.length = o.arity) :
    ∃ i, o.assemble? ps = some i := by
  cases o <;> simp only [Op.arity, Op.roles, List.length_cons, List.length_nil] at h
  all_goals
    first
    | (obtain ⟨a, b, c, rfl⟩ := List.length_eq_three.1 h; exact ⟨_, rfl⟩)
    | (obtain ⟨a, b, rfl⟩ := List.length_eq_two.1 h; exact ⟨_, rfl⟩)
    | (obtain ⟨a, rfl⟩ := List.length_eq_one_iff.1 h; exact ⟨_, rfl⟩)
    | (obtain rfl := List.length_eq_zero_iff.1 h; exact ⟨_, rfl⟩)

theorem Head.build_ok {h : Head} {raws : List Word} {i : Instr} :
    h.build raws = .ok i ↔ i.op = h.op ∧ i.params = List.zipWith Param.mk h.modes raws := by
  unfold Head.build
  cases ha : h.op.assemble? (List.zipWith Param.mk h.modes raws) with
  | none =>
    simp only [reduceCtorEq, false_iff]
    rintro ⟨h1, h2⟩
    rw [Op.assemble?_eq_some.2 ⟨h1, h2⟩] at ha
    cases ha
  | some j =>
    rw [Except.ok.injEq, ← Op.assemble?_eq_some, ha, Option.some.injEq]

theorem decodeHead_modes_length {ops : OpSet} {w : Word} {h : Head}
    (hd : decodeHead ops w = .ok h) : h.modes.length = h.op.arity := by
  rw [(modesFrom_ok.1 (decodeHead_ok.1 hd).2.2.2).2, List.length_mapIdx, Op.arity]

/-- With as many operand words as the arity, a decoded opcode word always builds. -/
theorem Head.build_of_length {ops : OpSet} {w : Word} {h : Head} {raws : List Word}
    (hd : decodeHead ops w = .ok h) (hl : raws.length = h.op.arity) : ∃ i, h.build raws = .ok i := by
  obtain ⟨i, hi⟩ := Op.assemble?_of_length (o := h.op) (ps := List.zipWith Param.mk h.modes raws)
    (by rw [List.length_zipWith, decodeHead_modes_length hd, hl, Nat.min_self])
  exact ⟨i, Head.build_ok.2 (Op.assemble?_eq_some.1 hi)⟩

/-- Everything that makes a sequence of words decode. -/
theorem decode_ok {ops : OpSet} {ws rest : List Word} {i : Instr} :
    decode ops ws = .ok (i, rest) ↔
      ∃ w tail h, ws = w :: tail ∧ decodeHead ops w = .ok h ∧
        h.build (tail.take h.op.arity) = .ok i ∧ rest = tail.drop h.op.arity := by
  cases ws with
  | nil => simp [decode]
  | cons w tail =>
    simp only [decode, bind, Except.bind, List.cons.injEq]
    cases hd : decodeHead ops w with
    | error e =>
      simp only [reduceCtorEq, false_iff]
      rintro ⟨w', tail', h', ⟨rfl, rfl⟩, hd', -⟩
      rw [hd] at hd'
      cases hd'
    | ok h =>
      constructor
      · intro he
        refine ⟨w, tail, h, ⟨rfl, rfl⟩, hd, ?_⟩
        dsimp only at he
        cases hb : h.build (tail.take h.op.arity) with
        | error e => rw [hb] at he; cases he
        | ok j => rw [hb] at he; cases he; exact ⟨rfl, rfl⟩
      · rintro ⟨w', tail', h', ⟨rfl, rfl⟩, hd', hb, rfl⟩
        rw [hd] at hd'
        cases hd'
        simp only [hb]

end Sys2Proof
end

