-- ==== Sys2Proof/Laws/State.lean ====
section
/-! SUPPORT. One lemma per field of the state and per update of it. -/

namespace Sys2Proof.Machine

variable (s : State)

/-! ### `setIp` -/

@[simp] theorem State.setIp_mem (a : Word) : (s.setIp a).mem = s.mem := rfl
@[simp] theorem State.setIp_len (a : Word) : (s.setIp a).len = s.len := rfl
@[simp] theorem State.setIp_ip (a : Word) : (s.setIp a).ip = a := rfl
@[simp] theorem State.setIp_st (a : Word) : (s.setIp a).st = s.st := rfl
@[simp] theorem State.setIp_err (a : Word) : (s.setIp a).err = s.err := rfl
@[simp] theorem State.setIp_inq (a : Word) : (s.setIp a).inq = s.inq := rfl
@[simp] theorem State.setIp_out (a : Word) : (s.setIp a).out = s.out := rfl

/-! ### `advance` -/

@[simp] theorem State.advance_mem (o : Op) : (s.advance o).mem = s.mem := rfl
@[simp] theorem State.advance_len (o : Op) : (s.advance o).len = s.len := rfl
@[simp] theorem State.advance_ip (o : Op) : (s.advance o).ip = s.ip + BitVec.ofNat 64 o.length := rfl
@[simp] theorem State.advance_st (o : Op) : (s.advance o).st = s.st := rfl
@[simp] theorem State.advance_err (o : Op) : (s.advance o).err = s.err := rfl
@[simp] theorem State.advance_inq (o : Op) : (s.advance o).inq = s.inq := rfl
@[simp] theorem State.advance_out (o : Op) : (s.advance o).out = s.out := rfl

/-! ### `setMem` -/

@[simp] theorem State.setMem_mem (m : Memory) : (s.setMem m).mem = m := rfl
@[simp] theorem State.setMem_len (m : Memory) : (s.setMem m).len = s.len := rfl
@[simp] theorem State.setMem_ip (m : Memory) : (s.setMem m).ip = s.ip := rfl
@[simp] theorem State.setMem_st (m : Memory) : (s.setMem m).st = s.st := rfl
@[simp] theorem State.setMem_err (m : Memory) : (s.setMem m).err = s.err := rfl
@[simp] theorem State.setMem_inq (m : Memory) : (s.setMem m).inq = s.inq := rfl
@[simp] theorem State.setMem_out (m : Memory) : (s.setMem m).out = s.out := rfl

/-! ### `setInq` -/

@[simp] theorem State.setInq_mem (q : List Word) : (s.setInq q).mem = s.mem := rfl
@[simp] theorem State.setInq_len (q : List Word) : (s.setInq q).len = s.len := rfl
@[simp] theorem State.setInq_ip (q : List Word) : (s.setInq q).ip = s.ip := rfl
@[simp] theorem State.setInq_st (q : List Word) : (s.setInq q).st = s.st := rfl
@[simp] theorem State.setInq_err (q : List Word) : (s.setInq q).err = s.err := rfl
@[simp] theorem State.setInq_inq (q : List Word) : (s.setInq q).inq = q := rfl
@[simp] theorem State.setInq_out (q : List Word) : (s.setInq q).out = s.out := rfl

/-! ### `emit` -/

@[simp] theorem State.emit_mem (v : Word) : (s.emit v).mem = s.mem := rfl
@[simp] theorem State.emit_len (v : Word) : (s.emit v).len = s.len := rfl
@[simp] theorem State.emit_ip (v : Word) : (s.emit v).ip = s.ip := rfl
@[simp] theorem State.emit_st (v : Word) : (s.emit v).st = s.st := rfl
@[simp] theorem State.emit_err (v : Word) : (s.emit v).err = s.err := rfl
@[simp] theorem State.emit_inq (v : Word) : (s.emit v).inq = s.inq := rfl
@[simp] theorem State.emit_out (v : Word) : (s.emit v).out = s.out ++ [v] := rfl

/-! ### `enterHalted` -/

@[simp] theorem State.enterHalted_mem : (s.enterHalted).mem = s.mem := rfl
@[simp] theorem State.enterHalted_len : (s.enterHalted).len = s.len := rfl
@[simp] theorem State.enterHalted_ip : (s.enterHalted).ip = s.ip := rfl
@[simp] theorem State.enterHalted_st : (s.enterHalted).st = .halted := rfl
@[simp] theorem State.enterHalted_err : (s.enterHalted).err = s.err := rfl
@[simp] theorem State.enterHalted_inq : (s.enterHalted).inq = s.inq := rfl
@[simp] theorem State.enterHalted_out : (s.enterHalted).out = s.out := rfl

/-! ### `raise` -/

@[simp] theorem State.raise_mem (k : FaultKind) : (s.raise k).mem = s.mem := rfl
@[simp] theorem State.raise_len (k : FaultKind) : (s.raise k).len = s.len := rfl
@[simp] theorem State.raise_ip (k : FaultKind) : (s.raise k).ip = s.ip := rfl
@[simp] theorem State.raise_st (k : FaultKind) : (s.raise k).st = .faulted := rfl
@[simp] theorem State.raise_err (k : FaultKind) : (s.raise k).err = some k := rfl
@[simp] theorem State.raise_inq (k : FaultKind) : (s.raise k).inq = s.inq := rfl
@[simp] theorem State.raise_out (k : FaultKind) : (s.raise k).out = s.out := rfl

end Sys2Proof.Machine
end

