-- ==== Sys2Proof/Laws/Memory.lean ====
section
/-! SUPPORT. The laws of memory as a canonical list: read after write, and that every operation keeps
the canonical form. -/

namespace Sys2Proof.Machine

@[simp] theorem Memory.read_nil (i : Nat) : Memory.read [] i = 0 := rfl

/-! ### Read after write, on any list -/

theorem Memory.read_put (i : Nat) (v : Word) (m : Memory) (j : Nat) :
    Memory.read (Memory.put i v m) j = if i = j then v else Memory.read m j := by
  induction m with
  | nil => simp [Memory.put, Memory.read]
  | cons c m ih =>
    obtain ⟨a, u⟩ := c
    simp only [Memory.put]
    split
    · simp only [Memory.read, ih]
      split <;> split <;> first | rfl | omega
    · split
      · subst a
        simp only [Memory.read]
        split <;> rfl
      · simp only [Memory.read]

theorem Memory.read_remove (i : Nat) (m : Memory) (j : Nat) :
    Memory.read (Memory.remove i m) j = if i = j then 0 else Memory.read m j := by
  induction m with
  | nil => simp [Memory.remove]
  | cons c m ih =>
    obtain ⟨a, u⟩ := c
    simp only [Memory.remove] at ih
    by_cases h : a = i
    · subst h
      simp only [Memory.remove, List.filter_cons, ne_eq, not_true_eq_false, decide_false,
        Bool.false_eq_true, if_false, ih, Memory.read]
      split <;> rfl
    · simp only [Memory.remove, List.filter_cons, ne_eq, h, not_false_eq_true, decide_true,
        if_true, Memory.read, ih]
      split <;> split <;> first | rfl | omega

/-- The word written is read back, and every other cell reads as before. -/
theorem Memory.read_write (m : Memory) (i : Nat) (v : Word) (j : Nat) :
    Memory.read (Memory.write m i v) j = if i = j then v else Memory.read m j := by
  unfold Memory.write
  split
  · next h => rw [Memory.read_remove, h]
  · exact Memory.read_put i v m j

/-! ### The canonical form -/

theorem Memory.mem_put {i : Nat} {v : Word} {m : Memory} {c : Nat × Word}
    (h : c ∈ Memory.put i v m) : c = (i, v) ∨ c ∈ m := by
  induction m with
  | nil => simpa [Memory.put] using h
  | cons d m ih =>
    obtain ⟨a, u⟩ := d
    simp only [Memory.put] at h
    split at h
    · rcases List.mem_cons.1 h with rfl | h
      · simp
      · rcases ih h with rfl | h <;> simp [*]
    · split at h <;> rcases List.mem_cons.1 h with rfl | h <;> simp_all

/-- A pair of the written memory is the one written or was there before. -/
theorem Memory.mem_write {m : Memory} {i : Nat} {v : Word} {c : Nat × Word}
    (h : c ∈ Memory.write m i v) : c = (i, v) ∨ c ∈ m := by
  unfold Memory.write at h
  split at h
  · exact .inr (List.mem_of_mem_filter h)
  · exact Memory.mem_put h

theorem Memory.wf_nil : Memory.wf [] := by simp [Memory.wf]

theorem Memory.wf_put {i : Nat} {v : Word} (hv : v ≠ 0) {m : Memory} (h : Memory.wf m) :
    Memory.wf (Memory.put i v m) := by
  refine ⟨?_, fun c hc => ?_⟩
  · have hp := h.1
    clear h
    induction m with
    | nil => simp [Memory.put]
    | cons d m ih =>
      obtain ⟨a, u⟩ := d
      obtain ⟨hd, hm⟩ := List.pairwise_cons.1 hp
      simp only [Memory.put]
      split
      · next hlt =>
        refine List.pairwise_cons.2 ⟨fun c hc => ?_, ih hm⟩
        rcases Memory.mem_put hc with rfl | hc
        · exact hlt
        · exact hd c hc
      · next hnlt =>
        split
        · next heq =>
          subst heq
          exact List.pairwise_cons.2 ⟨hd, hm⟩
        · refine List.pairwise_cons.2 ⟨fun c hc => ?_, hp⟩
          rcases List.mem_cons.1 hc with rfl | hc
          · show i < a
            omega
          · have := hd c hc
            show i < c.1
            simp only at this
            omega
  · rcases Memory.mem_put hc with rfl | hc
    · exact hv
    · exact h.2 c hc

/-- Every write keeps the canonical form. -/
theorem Memory.wf_write {m : Memory} (h : Memory.wf m) (i : Nat) (v : Word) :
    Memory.wf (Memory.write m i v) := by
  unfold Memory.write
  split
  · exact ⟨h.1.filter _, fun c hc => h.2 c (List.mem_of_mem_filter hc)⟩
  · next hv => exact Memory.wf_put hv h

/-! ### Loading a program -/

theorem Memory.mem_ofWordsFrom {ws : List Word} {i : Nat} {c : Nat × Word}
    (h : c ∈ Memory.ofWordsFrom i ws) : i ≤ c.1 ∧ c.1 < i + ws.length ∧ c.2 ≠ 0 := by
  induction ws generalizing i with
  | nil => simp [Memory.ofWordsFrom] at h
  | cons v vs ih =>
    simp only [Memory.ofWordsFrom] at h
    simp only [List.length_cons]
    split at h
    · obtain ⟨h1, h2, h3⟩ := ih h
      exact ⟨by omega, by omega, h3⟩
    · next hv =>
      rcases List.mem_cons.1 h with rfl | h
      · exact ⟨Nat.le_refl i, by simp, hv⟩
      · obtain ⟨h1, h2, h3⟩ := ih h
        exact ⟨by omega, by omega, h3⟩

theorem Memory.wf_ofWordsFrom (ws : List Word) (i : Nat) : Memory.wf (Memory.ofWordsFrom i ws) := by
  refine ⟨?_, fun c hc => (Memory.mem_ofWordsFrom hc).2.2⟩
  induction ws generalizing i with
  | nil => simp [Memory.ofWordsFrom]
  | cons v vs ih =>
    simp only [Memory.ofWordsFrom]
    split
    · exact ih (i + 1)
    · exact List.pairwise_cons.2 ⟨fun c hc => (Memory.mem_ofWordsFrom hc).1, ih (i + 1)⟩

/-- A cell below every pair reads 0. -/
theorem Memory.read_eq_zero {m : Memory} {j : Nat} (h : ∀ c ∈ m, c.1 ≠ j) :
    Memory.read m j = 0 := by
  induction m with
  | nil => rfl
  | cons c m ih =>
    obtain ⟨a, u⟩ := c
    have ha : a ≠ j := h (a, u) (by simp)
    simp only [Memory.read, ha, if_false]
    exact ih fun c hc => h c (List.mem_cons_of_mem _ hc)

/-- Cell `i + k` of a loaded program is its word `k`; past the program it reads 0. -/
theorem Memory.read_ofWordsFrom (ws : List Word) (i k : Nat) :
    Memory.read (Memory.ofWordsFrom i ws) (i + k) = ws.getD k 0 := by
  induction ws generalizing i k with
  | nil => simp [Memory.ofWordsFrom]
  | cons v vs ih =>
    cases k with
    | zero =>
      simp only [Memory.ofWordsFrom]
      split
      · next hv =>
        rw [Memory.read_eq_zero fun c hc => by have := (Memory.mem_ofWordsFrom hc).1; omega]
        simp [hv]
      · simp [Memory.read]
    | succ k =>
      have h := ih (i + 1) k
      rw [show i + 1 + k = i + (k + 1) by omega] at h
      simp only [Memory.ofWordsFrom]
      split
      · simpa using h
      · have hne : i ≠ i + (k + 1) := by omega
        simpa [Memory.read, hne] using h

/-- The memory after reset is in canonical form. -/
theorem State.reset_memory_wf : Memory.wf State.reset.mem := Memory.wf_nil

end Sys2Proof.Machine
end

