-- ==== Sys2Proof/Laws/Operands.lean ====
section
/-! SUPPORT. What the memory operations and the shared routines can do, said once. -/

namespace Sys2Proof.Machine

variable {s t : State} {a b v x y : Word} {k : FaultKind}

/-- A non-negative word is the same number read signed or unsigned. -/
theorem toInt_eq_toNat (h : 0 ≤ a.toInt) : a.toInt = a.toNat := by
  have := a.isLt
  simp only [BitVec.toInt_eq_toNat_cond] at h ⊢
  split at h <;> split <;> omega

/-- Addresses in bounds are told apart by their cell index. -/
theorem toNat_ne_of_ne (h : a ≠ b) : a.toNat ≠ b.toNat := fun e => h (BitVec.eq_of_toNat_eq e)

theorem State.inBounds_iff : s.InBounds a ↔ 0 ≤ a.toInt ∧ a.toInt < s.len := Iff.rfl

/-- The bounds depend on `LEN` alone. -/
theorem State.inBounds_congr (h : t.len = s.len) : t.InBounds a ↔ s.InBounds a := by
  rw [State.inBounds_iff, State.inBounds_iff, h]

theorem State.InBounds.toNat_lt (h : s.InBounds a) : a.toNat < s.len := by
  have := toInt_eq_toNat h.1
  have := h.2
  omega

/-! ### `MemRead` -/

theorem State.memRead_of_inBounds (h : s.InBounds a) :
    s.memRead a = .ok (Memory.read s.mem a.toNat) := if_pos h

theorem State.memRead_of_not_inBounds (h : ¬ s.InBounds a) : s.memRead a = .error .outOfBounds :=
  if_neg h

theorem State.memRead_ok : s.memRead a = .ok v ↔ s.InBounds a ∧ Memory.read s.mem a.toNat = v := by
  by_cases h : s.InBounds a
  · rw [State.memRead_of_inBounds h, Except.ok.injEq, and_iff_right h]
  · simp only [State.memRead_of_not_inBounds h, reduceCtorEq, h, false_and]

theorem State.memRead_error : s.memRead a = .error k ↔ ¬ s.InBounds a ∧ k = .outOfBounds := by
  by_cases h : s.InBounds a
  · simp only [State.memRead_of_inBounds h, reduceCtorEq, h, not_true_eq_false, false_and]
  · rw [State.memRead_of_not_inBounds h, Except.error.injEq, and_iff_right h, eq_comm]

/-- A read depends on memory and `LEN` alone. -/
theorem State.memRead_congr (hm : t.mem = s.mem) (hl : t.len = s.len) (a : Word) :
    t.memRead a = s.memRead a := by
  by_cases h : s.InBounds a
  · rw [State.memRead_of_inBounds h, State.memRead_of_inBounds ((State.inBounds_congr hl).2 h), hm]
  · rw [State.memRead_of_not_inBounds h,
      State.memRead_of_not_inBounds (mt (State.inBounds_congr hl).1 h)]

@[simp] theorem State.memRead_setIp : (s.setIp b).memRead a = s.memRead a := rfl
@[simp] theorem State.memRead_advance (o : Op) : (s.advance o).memRead a = s.memRead a := rfl
@[simp] theorem State.memRead_setInq (q : List Word) : (s.setInq q).memRead a = s.memRead a := rfl
@[simp] theorem State.memRead_emit : (s.emit v).memRead a = s.memRead a := rfl
@[simp] theorem State.memRead_enterHalted : s.enterHalted.memRead a = s.memRead a := rfl
@[simp] theorem State.memRead_raise : (s.raise k).memRead a = s.memRead a := rfl

/-! ### `MemWrite` -/

theorem State.memWrite_of_inBounds (h : s.InBounds a) :
    s.memWrite a v = .ok (s.setMem (Memory.write s.mem a.toNat v)) := if_pos h

theorem State.memWrite_of_not_inBounds (h : ¬ s.InBounds a) :
    s.memWrite a v = .error .outOfBounds := if_neg h

theorem State.memWrite_ok : s.memWrite a v = .ok t ↔
    s.InBounds a ∧ t = s.setMem (Memory.write s.mem a.toNat v) := by
  by_cases h : s.InBounds a
  · rw [State.memWrite_of_inBounds h, Except.ok.injEq, and_iff_right h, eq_comm]
  · simp only [State.memWrite_of_not_inBounds h, reduceCtorEq, h, false_and]

theorem State.memWrite_error : s.memWrite a v = .error k ↔ ¬ s.InBounds a ∧ k = .outOfBounds := by
  by_cases h : s.InBounds a
  · simp only [State.memWrite_of_inBounds h, reduceCtorEq, h, not_true_eq_false, false_and]
  · rw [State.memWrite_of_not_inBounds h, Except.error.injEq, and_iff_right h, eq_comm]

/-- What a read sees after a store: the word stored in that cell, every other cell as before. -/
theorem State.memRead_store (h : s.InBounds a) : (s.setMem (Memory.write s.mem a.toNat v)).memRead b =
    if b = a then .ok v else s.memRead b := by
  by_cases hb : s.InBounds b
  · have hb' : (s.setMem (Memory.write s.mem a.toNat v)).InBounds b := hb
    rw [State.memRead_of_inBounds hb', State.setMem_mem, Memory.read_write]
    by_cases e : b = a
    · simp [e]
    · rw [if_neg (toNat_ne_of_ne (Ne.symm e)), if_neg e, State.memRead_of_inBounds hb]
  · have hb' : ¬ (s.setMem (Memory.write s.mem a.toNat v)).InBounds b := hb
    have e : b ≠ a := fun e => hb (e ▸ h)
    rw [State.memRead_of_not_inBounds hb', if_neg e, State.memRead_of_not_inBounds hb]

/-! ### `Resolve` -/

theorem State.resolve_immediate (raw : Word) : s.resolve ⟨.immediate, raw⟩ = .ok raw := rfl

theorem State.resolve_position (raw : Word) : s.resolve ⟨.position, raw⟩ = s.memRead raw := rfl

/-- The only fault of `Resolve` is a Position parameter with a bad address. -/
theorem State.resolve_error {p : Param} : s.resolve p = .error k ↔
    p.mode = .position ∧ ¬ s.InBounds p.raw ∧ k = .outOfBounds := by
  obtain ⟨m, raw⟩ := p
  cases m <;> simp [State.resolve, State.memRead_error]

/-! ### The overflow law -/

theorem narrow_of_fits {p : OverflowPolicy} {i : Int} (h : Fits i) :
    narrow p i = .ok (BitVec.ofInt 64 i) := if_pos h

theorem narrow_fault_of_not_fits {i : Int} (h : ¬ Fits i) : narrow .fault i = .error .overflow :=
  if_neg h

/-- A word made from an integer that fits has that value. -/
theorem toInt_ofInt_of_fits {i : Int} (h : Fits i) : (BitVec.ofInt 64 i).toInt = i := by
  obtain ⟨h1, h2⟩ := h
  rw [BitVec.toInt_ofInt]
  simp only [wmin, wmax] at h1 h2
  rw [Int.bmod_def]
  split <;> omega

/-- The only fault of the overflow law. -/
theorem narrow_error {p : OverflowPolicy} {i : Int} (h : narrow p i = .error k) :
    k = .overflow ∧ ¬ Fits i := by
  unfold narrow at h
  split at h
  · cases h
  · next hf => cases p <;> simp_all

/-! ### The conditions of the jumps -/

theorem firesOnTrue_iff {c : Word} : firesOnTrue c = true ↔ c ≠ 0 := decide_eq_true_iff

theorem firesOnTrue_eq_false {c : Word} : firesOnTrue c = false ↔ c = 0 := by
  rw [← Bool.not_eq_true, firesOnTrue_iff, not_not]

theorem firesOnFalse_iff {c : Word} : firesOnFalse c = true ↔ c = 0 := decide_eq_true_iff

theorem firesOnFalse_eq_false {c : Word} : firesOnFalse c = false ↔ c ≠ 0 := by
  rw [← Bool.not_eq_true, firesOnFalse_iff]

/-! ### The shared routines -/

/-- Everything the routine of Add, Multiply, LessThan and Equals can do when it completes. -/
theorem State.binary_ok {o : Op} {f : Word → Word → Except FaultKind Word} {p1 p2 dst : Param} :
    s.binary o f p1 p2 dst = .ok t ↔
      ∃ x y r, s.resolve p1 = .ok x ∧ s.resolve p2 = .ok y ∧ f x y = .ok r ∧
        s.InBounds (writeAddr dst) ∧
        t = (s.setMem (Memory.write s.mem (writeAddr dst).toNat r)).advance o := by
  unfold State.binary
  cases hx : s.resolve p1 with
  | error e => simp [bind, Except.bind]
  | ok x =>
    cases hy : s.resolve p2 with
    | error e => simp [bind, Except.bind]
    | ok y =>
      cases hf : f x y with
      | error e => simp [bind, Except.bind, hf]
      | ok r =>
        by_cases hb : s.InBounds (writeAddr dst)
        · simp [bind, Except.bind, State.memWrite_of_inBounds hb, hb, hf, eq_comm]
        · simp [bind, Except.bind, State.memWrite_of_not_inBounds hb, hb, hf]

/-- Everything that can make it fault, in the order of the tests. -/
theorem State.binary_error {o : Op} {f : Word → Word → Except FaultKind Word} {p1 p2 dst : Param} :
    s.binary o f p1 p2 dst = .error k ↔
      s.resolve p1 = .error k ∨
      ∃ x, s.resolve p1 = .ok x ∧ (s.resolve p2 = .error k ∨
        ∃ y, s.resolve p2 = .ok y ∧ (f x y = .error k ∨
          ∃ r, f x y = .ok r ∧ ¬ s.InBounds (writeAddr dst) ∧ k = .outOfBounds)) := by
  unfold State.binary
  cases hx : s.resolve p1 with
  | error e => simp [bind, Except.bind]
  | ok x =>
    cases hy : s.resolve p2 with
    | error e => simp [bind, Except.bind]
    | ok y =>
      cases hf : f x y with
      | error e => simp [bind, Except.bind, hf]
      | ok r =>
        by_cases hb : s.InBounds (writeAddr dst)
        · simp [bind, Except.bind, State.memWrite_of_inBounds hb, hb, hf]
        · simp [bind, Except.bind, State.memWrite_of_not_inBounds hb, hb, hf, eq_comm]

/-- Everything the routine of the jumps can do when it completes. -/
theorem State.jump_ok {o : Op} {fires : Word → Bool} {p1 p2 : Param} :
    s.jump o fires p1 p2 = .ok t ↔
      ∃ c, s.resolve p1 = .ok c ∧
        ((fires c = true ∧ ∃ target, s.resolve p2 = .ok target ∧ t = s.setIp target) ∨
          (fires c = false ∧ t = s.advance o)) := by
  unfold State.jump
  cases hc : s.resolve p1 with
  | error e => simp [bind, Except.bind]
  | ok c =>
    cases hf : fires c with
    | false => simp [bind, Except.bind, hf, @eq_comm _ _ t]
    | true => cases ht : s.resolve p2 <;> simp [bind, Except.bind, hf, @eq_comm _ _ t]

/-- Everything that can make it fault. -/
theorem State.jump_error {o : Op} {fires : Word → Bool} {p1 p2 : Param} :
    s.jump o fires p1 p2 = .error k ↔
      s.resolve p1 = .error k ∨
      ∃ c, s.resolve p1 = .ok c ∧ fires c = true ∧ s.resolve p2 = .error k := by
  unfold State.jump
  cases hc : s.resolve p1 with
  | error e => simp [bind, Except.bind]
  | ok c =>
    cases hf : fires c with
    | false => simp [bind, Except.bind, hf]
    | true => cases ht : s.resolve p2 <;> simp [bind, Except.bind, hf]

/-! ### The end of a step -/

theorem State.settle_ok : s.settle (.ok t) = .next t := rfl

theorem State.settle_error : s.settle (.error k) = .next (s.raise k) := rfl

/-- A step that settles goes to the routine's state or to fault entry. -/
theorem State.settle_next {r : Except FaultKind State} : s.settle r = .next t ↔
    r = .ok t ∨ ∃ k, r = .error k ∧ t = s.raise k := by
  cases r <;> simp [State.settle, eq_comm]

end Sys2Proof.Machine
end

