-- ==== Sys2Proof/Laws/Step.lean ====
section
/-! SUPPORT. What fetching, decoding from memory, executing and stepping can do, said once. -/

namespace Sys2Proof.Machine

variable {s t : State} {ops : OpSet} {a : Word} {k : FaultKind}

/-! ### Fetching operand words -/

theorem add_ofNat_succ (a : Word) (j : Nat) :
    a + BitVec.ofNat 64 (j + 1) = a + 1 + BitVec.ofNat 64 j := by
  rw [show j + 1 = 1 + j by omega, BitVec.ofNat_add, ← BitVec.add_assoc]
  rfl

/-- The operand words are those of the cells in order, and `DP` ends past them. -/
theorem State.fetchOperands_ok {n : Nat} {vs : List Word} {last : Word} :
    s.fetchOperands a n = .ok (vs, last) ↔
      vs.length = n ∧ last = a + BitVec.ofNat 64 n ∧
        ∀ j v, vs[j]? = some v → s.memRead (a + BitVec.ofNat 64 j) = .ok v := by
  induction n generalizing a vs last with
  | zero =>
    simp only [State.fetchOperands, Except.ok.injEq, Prod.mk.injEq, List.length_eq_zero_iff]
    constructor
    · rintro ⟨rfl, rfl⟩
      simp
    · rintro ⟨rfl, rfl, -⟩
      simp
  | succ n ih =>
    simp only [State.fetchOperands, bind, Except.bind]
    constructor
    · intro h
      cases hv : s.memRead a with
      | error e => rw [hv] at h; cases h
      | ok v =>
        rw [hv] at h
        cases hr : s.fetchOperands (a + 1) n with
        | error e => simp only [hr] at h; cases h
        | ok p =>
          obtain ⟨vs', last'⟩ := p
          simp only [hr] at h
          cases h
          obtain ⟨h1, h2, h3⟩ := ih.1 hr
          refine ⟨by simp [h1], by rw [h2, add_ofNat_succ], fun j u hj => ?_⟩
          cases j with
          | zero =>
            simp only [List.getElem?_cons_zero, Option.some.injEq] at hj
            simpa [hj] using hv
          | succ j => rw [add_ofNat_succ]; exact h3 j u (by simpa using hj)
    · rintro ⟨h1, h2, h3⟩
      cases vs with
      | nil => simp at h1
      | cons v vs =>
        have hv : s.memRead a = .ok v := by simpa using h3 0 v (by simp)
        have hr : s.fetchOperands (a + 1) n = .ok (vs, last) :=
          ih.2 ⟨by simpa using h1, by rw [h2, add_ofNat_succ],
            fun j u hj => by rw [← add_ofNat_succ]; exact h3 (j + 1) u (by simpa using hj)⟩
        rw [hv]
        simp only [hr]

/-- The fetch of operand words faults exactly when one of their addresses is bad. -/
theorem State.fetchOperands_error {n : Nat} :
    s.fetchOperands a n = .error k ↔
      (∃ j < n, ¬ s.InBounds (a + BitVec.ofNat 64 j)) ∧ k = .outOfBounds := by
  induction n generalizing a with
  | zero => simp [State.fetchOperands]
  | succ n ih =>
    have hsplit : (∃ j < n + 1, ¬ s.InBounds (a + BitVec.ofNat 64 j)) ↔
        ¬ s.InBounds a ∨ ∃ j < n, ¬ s.InBounds (a + 1 + BitVec.ofNat 64 j) := by
      constructor
      · rintro ⟨j, hj, h⟩
        cases j with
        | zero => exact .inl (by simpa using h)
        | succ j => exact .inr ⟨j, by omega, by rwa [← add_ofNat_succ]⟩
      · rintro (h | ⟨j, hj, h⟩)
        · exact ⟨0, by omega, by simpa using h⟩
        · exact ⟨j + 1, by omega, by rwa [add_ofNat_succ]⟩
    rw [hsplit]
    simp only [State.fetchOperands, bind, Except.bind]
    by_cases hb : s.InBounds a
    · rw [State.memRead_of_inBounds hb]
      simp only [hb, not_true_eq_false, false_or]
      rw [← ih]
      cases s.fetchOperands (a + 1) n <;> simp
    · rw [State.memRead_of_not_inBounds hb]
      simp [hb, eq_comm]

/-! ### Decoding from memory -/

/-- Everything that makes the Decoder answer an instruction record. -/
theorem State.decodeAt_ok {ir : Decoded} :
    s.decodeAt ops a = .ok ir ↔
      ∃ w h raws, s.memRead a = .ok w ∧ decodeHead ops w = .ok h ∧
        s.fetchOperands (a + 1) h.op.arity = .ok (raws, ir.next) ∧ h.build raws = .ok ir.instr := by
  simp only [State.decodeAt, bind, Except.bind]
  cases hw : s.memRead a with
  | error e => simp
  | ok w =>
    dsimp only
    cases hd : decodeHead ops w with
    | error e =>
      simp only [reduceCtorEq, false_iff]
      rintro ⟨w', h', raws', hw', hd', -⟩
      cases hw'
      rw [hd] at hd'
      cases hd'
    | ok h =>
      dsimp only
      constructor
      · intro he
        refine ⟨w, h, ?_⟩
        cases hf : s.fetchOperands (a + 1) h.op.arity with
        | error e => simp only [hf] at he; cases he
        | ok p =>
          obtain ⟨raws, last⟩ := p
          simp only [hf] at he
          cases hb : h.build raws with
          | error e => simp only [hb] at he; cases he
          | ok i =>
            simp only [hb] at he
            cases he
            exact ⟨raws, rfl, hd, rfl, hb⟩
      · rintro ⟨w', h', raws, hw', hd', hf, hb⟩
        cases hw'
        rw [hd] at hd'
        cases hd'
        simp only [hf, hb]

/-- Everything that makes the Decoder fault, in the order of the tests. -/
theorem State.decodeAt_error :
    s.decodeAt ops a = .error k ↔
      s.memRead a = .error k ∨
      ∃ w, s.memRead a = .ok w ∧ (decodeHead ops w = .error k ∨
        ∃ h, decodeHead ops w = .ok h ∧ s.fetchOperands (a + 1) h.op.arity = .error k) := by
  simp only [State.decodeAt, bind, Except.bind]
  cases hw : s.memRead a with
  | error e => simp
  | ok w =>
    dsimp only
    cases hd : decodeHead ops w with
    | error e => simp [hd]
    | ok h =>
      simp only [reduceCtorEq, Except.ok.injEq, false_or, exists_eq_left', hd]
      cases hf : s.fetchOperands (a + 1) h.op.arity with
      | error e => simp
      | ok p =>
        obtain ⟨raws, last⟩ := p
        obtain ⟨i, hi⟩ := Head.build_of_length hd (State.fetchOperands_ok.1 hf).1
        simp [hi]

/-- The record's instruction has the kind of the opcode word, and `next` is past its words. -/
theorem State.decodeAt_next {ir : Decoded} (h : s.decodeAt ops a = .ok ir) :
    ir.next = a + BitVec.ofNat 64 ir.instr.op.length := by
  obtain ⟨w, hd, raws, -, -, hf, hb⟩ := State.decodeAt_ok.1 h
  rw [(State.fetchOperands_ok.1 hf).2.1, (Head.build_ok.1 hb).1, Op.length_eq,
    show 1 + hd.op.arity = hd.op.arity + 1 by omega, add_ofNat_succ]

/-! ### Executing -/

/-- Everything the execute phase of an instruction can do: fault entry with nothing else written,
fault entry with the head of `INQ` gone, or one of the effects, each with its place for `IP`. -/
theorem exec_cases (i : Instr) (s : State) : ∃ t, exec i s = .next t ∧
    ((∃ k, t = s.raise k) ∨
      (∃ dst v rest, i = .input dst ∧ s.inq = v :: rest ∧ ¬ s.InBounds (writeAddr dst) ∧
        t = (s.setInq rest).raise .outOfBounds) ∨
      (∃ dst r, i.dest? = some dst ∧ i.op ≠ .input ∧ s.InBounds (writeAddr dst) ∧
        t = (s.setMem (Memory.write s.mem (writeAddr dst).toNat r)).advance i.op) ∨
      (∃ dst v rest, i = .input dst ∧ s.inq = v :: rest ∧ s.InBounds (writeAddr dst) ∧
        t = ((s.setInq rest).setMem (Memory.write s.mem (writeAddr dst).toNat v)).advance .input) ∨
      (∃ p1 v, i = .output p1 ∧ s.resolve p1 = .ok v ∧ t = (s.emit v).advance .output) ∨
      (i.op = .jumpIfTrue ∨ i.op = .jumpIfFalse) ∧
        ((∃ target, t = s.setIp target) ∨ t = s.advance i.op) ∨
      (i = .halt ∧ t = s.enterHalted.advance .halt)) := by
  have hbin : ∀ (o : Op) (f : Word → Word → Except FaultKind Word) (p1 p2 dst : Param),
      i.dest? = some dst → i.op = o → o ≠ .input →
      exec i s = s.settle (s.binary o f p1 p2 dst) → ∃ t, exec i s = .next t ∧
        ((∃ k, t = s.raise k) ∨
          (∃ dst r, i.dest? = some dst ∧ i.op ≠ .input ∧ s.InBounds (writeAddr dst) ∧
            t = (s.setMem (Memory.write s.mem (writeAddr dst).toNat r)).advance i.op)) := by
    intro o f p1 p2 dst hdst ho hne he
    cases hr : s.binary o f p1 p2 dst with
    | error k => exact ⟨s.raise k, by rw [he, hr]; rfl, .inl ⟨k, rfl⟩⟩
    | ok t =>
      obtain ⟨x, y, r, -, -, -, hb, rfl⟩ := State.binary_ok.1 hr
      exact ⟨_, by rw [he, hr]; rfl, .inr ⟨dst, r, hdst, ho ▸ hne, hb, by rw [ho]⟩⟩
  have hjmp : ∀ (o : Op) (fires : Word → Bool) (p1 p2 : Param), i.op = o →
      exec i s = s.settle (s.jump o fires p1 p2) → ∃ t, exec i s = .next t ∧
        ((∃ k, t = s.raise k) ∨ (∃ target, t = s.setIp target) ∨ t = s.advance i.op) := by
    intro o fires p1 p2 ho he
    cases hr : s.jump o fires p1 p2 with
    | error k => exact ⟨s.raise k, by rw [he, hr]; rfl, .inl ⟨k, rfl⟩⟩
    | ok t =>
      refine ⟨t, by rw [he, hr]; rfl, ?_⟩
      obtain ⟨c, -, ⟨-, target, -, rfl⟩ | ⟨-, rfl⟩⟩ := State.jump_ok.1 hr
      · exact .inr (.inl ⟨target, rfl⟩)
      · exact .inr (.inr (by rw [ho]))
  cases i with
  | add p1 p2 dst =>
    obtain ⟨t, h, h1 | h1⟩ := hbin .add _ p1 p2 dst rfl rfl (by decide) rfl
    · exact ⟨t, h, .inl h1⟩
    · exact ⟨t, h, .inr (.inr (.inl h1))⟩
  | multiply p1 p2 dst =>
    obtain ⟨t, h, h1 | h1⟩ := hbin .multiply _ p1 p2 dst rfl rfl (by decide) rfl
    · exact ⟨t, h, .inl h1⟩
    · exact ⟨t, h, .inr (.inr (.inl h1))⟩
  | lessThan p1 p2 dst =>
    obtain ⟨t, h, h1 | h1⟩ := hbin .lessThan _ p1 p2 dst rfl rfl (by decide) rfl
    · exact ⟨t, h, .inl h1⟩
    · exact ⟨t, h, .inr (.inr (.inl h1))⟩
  | equals p1 p2 dst =>
    obtain ⟨t, h, h1 | h1⟩ := hbin .equals _ p1 p2 dst rfl rfl (by decide) rfl
    · exact ⟨t, h, .inl h1⟩
    · exact ⟨t, h, .inr (.inr (.inl h1))⟩
  | jumpIfTrue p1 p2 =>
    obtain ⟨t, h, h1 | h1⟩ := hjmp .jumpIfTrue _ p1 p2 rfl rfl
    · exact ⟨t, h, .inl h1⟩
    · exact ⟨t, h, .inr (.inr (.inr (.inr (.inr (.inl ⟨.inl rfl, h1⟩)))))⟩
  | jumpIfFalse p1 p2 =>
    obtain ⟨t, h, h1 | h1⟩ := hjmp .jumpIfFalse _ p1 p2 rfl rfl
    · exact ⟨t, h, .inl h1⟩
    · exact ⟨t, h, .inr (.inr (.inr (.inr (.inr (.inl ⟨.inr rfl, h1⟩)))))⟩
  | output p1 =>
    cases hv : s.resolve p1 with
    | error k =>
      exact ⟨s.raise k, by simp [exec, execOutput, hv, bind, Except.bind, State.settle],
        .inl ⟨k, rfl⟩⟩
    | ok v =>
      exact ⟨(s.emit v).advance .output,
        by simp [exec, execOutput, hv, bind, Except.bind, State.settle],
        .inr (.inr (.inr (.inr (.inl ⟨p1, v, rfl, hv, rfl⟩))))⟩
  | halt => exact ⟨_, rfl, .inr (.inr (.inr (.inr (.inr (.inr ⟨rfl, rfl⟩)))))⟩
  | input dst =>
    cases hq : s.inq with
    | nil => exact ⟨s.raise .inputExhausted, by simp [exec, execInput, hq], .inl ⟨_, rfl⟩⟩
    | cons v rest =>
      by_cases hb : s.InBounds (writeAddr dst)
      · have hb' : (s.setInq rest).InBounds (writeAddr dst) := hb
        exact ⟨_, by simp [exec, execInput, hq, State.memWrite_of_inBounds hb', bind, Except.bind,
            State.settle],
          .inr (.inr (.inr (.inl ⟨dst, v, rest, rfl, rfl, hb, rfl⟩)))⟩
      · have hb' : ¬ (s.setInq rest).InBounds (writeAddr dst) := hb
        exact ⟨_, by simp [exec, execInput, hq, State.memWrite_of_not_inBounds hb', bind,
            Except.bind, State.settle],
          .inr (.inl ⟨dst, v, rest, rfl, rfl, hb, rfl⟩)⟩

/-! ### Stepping -/

theorem stepUnder_active_ok {ir : Decoded} (hs : s.st = .active)
    (h : s.decodeAt ops s.ip = .ok ir) : stepUnder ops s = exec ir.instr s := by
  simp [stepUnder, hs, h]

theorem stepUnder_active_error (hs : s.st = .active) (h : s.decodeAt ops s.ip = .error k) :
    stepUnder ops s = .next (s.raise k) := by
  simp [stepUnder, hs, h]

theorem stepUnder_of_not_active (hs : s.st ≠ .active) : stepUnder ops s = .next s := by
  unfold stepUnder
  cases h : s.st <;> simp_all

/-- Everything a step can do: nothing outside `ACTIVE`; fault entry from the decode phase; or the
execution of the decoded instruction. -/
theorem stepUnder_cases (ops : OpSet) (s : State) :
    (s.st ≠ .active ∧ stepUnder ops s = .next s) ∨
    (s.st = .active ∧ ∃ k, s.decodeAt ops s.ip = .error k ∧ stepUnder ops s = .next (s.raise k)) ∨
    (s.st = .active ∧ ∃ ir, s.decodeAt ops s.ip = .ok ir ∧ stepUnder ops s = exec ir.instr s) := by
  by_cases hs : s.st = .active
  · cases h : s.decodeAt ops s.ip with
    | error k => exact .inr (.inl ⟨hs, k, rfl, stepUnder_active_error hs h⟩)
    | ok ir => exact .inr (.inr ⟨hs, ir, rfl, stepUnder_active_ok hs h⟩)
  · exact .inl ⟨hs, stepUnder_of_not_active hs⟩

/-! ### Placing an instruction -/

theorem Memory.wf_writeAll {m : Memory} (h : Memory.wf m) (i : Nat) (ws : List Word) :
    Memory.wf (Memory.writeAll m i ws) := by
  induction ws generalizing m i with
  | nil => exact h
  | cons v vs ih => exact ih (Memory.wf_write h i v) (i + 1)

/-- Cell `i + j` of the written memory is word `j`; the other cells read as before. -/
theorem Memory.read_writeAll (m : Memory) (i : Nat) (ws : List Word) (j : Nat) :
    Memory.read (Memory.writeAll m i ws) j =
      if i ≤ j ∧ j < i + ws.length then ws.getD (j - i) 0 else Memory.read m j := by
  induction ws generalizing m i with
  | nil =>
    have : ¬ (i ≤ j ∧ j < i + ([] : List Word).length) := by simp
    rw [if_neg this]
    rfl
  | cons v vs ih =>
    simp only [Memory.writeAll, ih, Memory.read_write, List.length_cons]
    by_cases h : i = j
    · subst h
      simp
    · by_cases h' : i + 1 ≤ j ∧ j < i + 1 + vs.length
      · rw [if_pos h', if_pos (by omega), show j - i = j - (i + 1) + 1 by omega]
        simp
      · rw [if_neg h', if_neg h, if_neg (by omega)]

end Sys2Proof.Machine
end

