-- ==== Sys2Proof/Laws/Boundary.lean ====
section
/-! SUPPORT. What the host's move `step`, the run `stepN` and the loop `execute` can do, one step at a
time (spec/10_state.md R33, R36, spec/40_step_and_dispatch.md R77). -/

namespace Sys2Proof.Machine

/-- A step always has a next state, and it is that of the move `step` (R33). -/
theorem step_eq_next_move (s : State) : step s = .next (s.move .step) := by
  obtain ⟨t, ht⟩ : ∃ t, step s = .next t := by
    by_cases hs : s.st = .active
    · cases h : s.decodeAt Config.opset s.ip with
      | ok ir =>
        obtain ⟨t, ht, -⟩ := exec_cases ir.instr s
        exact ⟨t, (stepUnder_active_ok hs h).trans ht⟩
      | error k => exact ⟨_, stepUnder_active_error hs h⟩
    · exact ⟨s, stepUnder_of_not_active hs⟩
  rw [State.move, ht]

@[simp] theorem stepN_zero (s : State) : stepN 0 s = s := rfl

@[simp] theorem stepN_succ (k : Nat) (s : State) : stepN (k + 1) s = stepN k (s.move .step) := rfl

/-- One turn of the loop (R77). -/
theorem execute_succ_of_active {s : State} (h : s.st = .active) (fuel : Nat) :
    execute (fuel + 1) s = execute fuel (s.move .step) := by
  rw [execute.eq_def]
  simp only [h, step_eq_next_move]

/-- Without fuel an active machine has no result yet (R79, log entry 9). -/
theorem execute_zero_of_active {s : State} (h : s.st = .active) : execute 0 s = none := by
  rw [execute.eq_def]
  simp only [h]

end Sys2Proof.Machine
end

