-- ==== Sys2Proof/Laws/PerInstr.lean ====
section
/-! SUPPORT. The per-instruction family `Layout`: the encoding of every instruction has the number of
words of R55, and its opcode word is a non-negative numeral of at most five digits (R59). -/

namespace Sys2Proof.Laws

def Layout.Statement (i : Instr) : Prop :=
  (encode i).length = i.op.length ∧ i.opcodeWord.toNat = i.op.base + digitsFrom 1 i.params ∧
    i.opcodeWord.toNat < 100000

theorem Mode.digit_le (m : Mode) : m.digit ≤ 1 := by cases m <;> decide

theorem layout_of_digits {i : Instr} (h : digitsFrom 1 i.params ≤ 11100) : Layout.Statement i := by
  have hb := Op.base_lt i.op
  have hw : i.opcodeWord.toNat = i.op.base + digitsFrom 1 i.params := by
    rw [Instr.opcodeWord, BitVec.toNat_ofNat]
    omega
  refine ⟨?_, hw, by omega⟩
  rw [encode, List.length_cons, List.length_map, Instr.params_length, Op.length_eq]
  omega

theorem digits_three (a b c : Param) : digitsFrom 1 [a, b, c] ≤ 11100 := by
  have := Mode.digit_le a.mode
  have := Mode.digit_le b.mode
  have := Mode.digit_le c.mode
  simp only [digitsFrom]
  omega

theorem digits_two (a b : Param) : digitsFrom 1 [a, b] ≤ 11100 := by
  have := Mode.digit_le a.mode
  have := Mode.digit_le b.mode
  simp only [digitsFrom]
  omega

theorem digits_one (a : Param) : digitsFrom 1 [a] ≤ 11100 := by
  have := Mode.digit_le a.mode
  simp only [digitsFrom]
  omega

theorem Layout.add (p1 p2 dst : Param) : Layout.Statement (.add p1 p2 dst) :=
  layout_of_digits (digits_three p1 p2 dst)

theorem Layout.multiply (p1 p2 dst : Param) : Layout.Statement (.multiply p1 p2 dst) :=
  layout_of_digits (digits_three p1 p2 dst)

theorem Layout.input (dst : Param) : Layout.Statement (.input dst) :=
  layout_of_digits (digits_one dst)

theorem Layout.output (p1 : Param) : Layout.Statement (.output p1) :=
  layout_of_digits (digits_one p1)

theorem Layout.jumpIfTrue (p1 p2 : Param) : Layout.Statement (.jumpIfTrue p1 p2) :=
  layout_of_digits (digits_two p1 p2)

theorem Layout.jumpIfFalse (p1 p2 : Param) : Layout.Statement (.jumpIfFalse p1 p2) :=
  layout_of_digits (digits_two p1 p2)

theorem Layout.lessThan (p1 p2 dst : Param) : Layout.Statement (.lessThan p1 p2 dst) :=
  layout_of_digits (digits_three p1 p2 dst)

theorem Layout.equals (p1 p2 dst : Param) : Layout.Statement (.equals p1 p2 dst) :=
  layout_of_digits (digits_three p1 p2 dst)

theorem Layout.halt : Layout.Statement .halt := layout_of_digits (by decide)

end Sys2Proof.Laws
end

