-- ==== Sys2Proof/Tests/Slice0.lean ====
section
/-! SUPPORT. The model's own tests, their results taken from spec/95_test_vectors.md or from the rule
named, and for every statement with hypotheses a witness that meets them. -/

namespace Sys2Proof.Tests

open Sys2Proof.Machine

/-- The machine right after construction. -/
def boot (program inputs : List Word) : State := State.load program inputs

/-- The state after one step. -/
def after (s : State) : State := s.move .step

def pos (r : Word) : Param := ⟨.position, r⟩
def imm (r : Word) : Param := ⟨.immediate, r⟩

/-- `WMAX` as a word. -/
def maxWord : Word := 9223372036854775807

/-- `WMIN` as a word. -/
def minWord : Word := -9223372036854775808

/-- The restricted set of the vectors V-F15 to V-F17. -/
def arithmeticOnly : OpSet := [.add, .multiply, .halt]

/-! ### Well-formedness: one ill-formed term per check -/

theorem test_illformed_immediate_destination :
    ¬ Instr.WellFormed Config.opset (.add (pos 0) (pos 0) (imm 0)) := by decide

theorem test_illformed_unregistered :
    ¬ Instr.WellFormed arithmeticOnly (.input (pos 0)) := by decide

theorem test_wellformed_add :
    Instr.WellFormed Config.opset (.add (imm 0) (pos 0) (pos 0)) := by decide

/-! ### Decoding: words written out from R59, and the refusals (vectors V-D) -/

theorem test_decode_add : decode Config.opset [1001, 4, 3, 5, 7] =
    .ok (.add (pos 4) (imm 3) (pos 5), [7]) := by decide
theorem test_decode_multiply : decode Config.opset [102, 7, 8, 9] =
    .ok (.multiply (imm 7) (pos 8) (pos 9), []) := by decide
theorem test_decode_input : decode Config.opset [903, 16] = .ok (.input (pos 16), []) := by decide
theorem test_decode_output : decode Config.opset [104, -17] = .ok (.output (imm (-17)), []) := by
  decide
theorem test_decode_jumpIfTrue : decode Config.opset [1105, -1, 9] =
    .ok (.jumpIfTrue (imm (-1)) (imm 9), []) := by decide
theorem test_decode_jumpIfFalse : decode Config.opset [1006, 17, 13] =
    .ok (.jumpIfFalse (pos 17) (imm 13), []) := by decide
theorem test_decode_lessThan : decode Config.opset [7, 17, 18, 19] =
    .ok (.lessThan (pos 17) (pos 18) (pos 19), []) := by decide
theorem test_decode_equals : decode Config.opset [91108, 5, 6, 7] =
    .ok (.equals (imm 5) (imm 6) (pos 7), []) := by decide
theorem test_decode_halt : decode Config.opset [100099] = .ok (.halt, []) := by decide

theorem test_decode_negative : decodeHead Config.opset (-1) = .error .unknownOpcode := by decide
theorem test_decode_base_nine : decodeHead Config.opset 109 = .error .unknownOpcode := by decide
theorem test_decode_wmax : decodeHead Config.opset maxWord = .error .reservedMode := by decide
theorem test_decode_unknown_before_mode : decodeHead Config.opset 200 = .error .unknownOpcode := by
  decide
theorem test_decode_input_digit_ignored :
    decodeHead Config.opset 203 = .ok ⟨.input, [.position]⟩ := by decide
theorem test_decode_restricted : decodeHead arithmeticOnly 204 = .error .unknownOpcode := by decide
theorem test_decode_truncated : decode Config.opset [1, 0, 0] = .error .outOfBounds := by decide

theorem test_encode_equals : encode (.equals (imm 5) (pos 6) (pos 7)) = [108, 5, 6, 7] := by decide

theorem test_table_word_output : decodeTableWord 8 4 = some (.output (pos 0)) := by decide
theorem test_table_word_add : decodeTableWord 128 (101 + 2 ^ 64 * 5) =
    some (.add (imm 5) (pos 0) (pos 0)) := by decide
theorem test_placed_output_runs : step (State.reset.withFetchWord 8 4) =
    exec (.output (pos 0)) (State.reset.withFetchWord 8 4) := by rfl

/-! ### One step of each instruction -/

/-- V-A1. -/
theorem test_add_negative : after (boot [1101, -5, 3, 0, 99] []) =
    (boot [-2, -5, 3, 0, 99] []).setIp 4 := by decide
/-- V-A6. -/
theorem test_add_overflow : after (boot [1101, maxWord, 1, 0, 99] []) =
    (boot [1101, maxWord, 1, 0, 99] []).raise .overflow := by decide
/-- S2. -/
theorem test_multiply_immediate : after (boot [1002, 4, 3, 4, 33] []) =
    (boot [1002, 4, 3, 4, 99] []).setIp 4 := by decide
/-- V-A13. -/
theorem test_multiply_to_wmin : after (boot [1102, -4294967296, 2147483648, 0, 99] []) =
    (boot [minWord, -4294967296, 2147483648, 0, 99] []).setIp 4 := by decide
/-- V-I1, and a cell that becomes 0 leaves the list. -/
theorem test_input_zero : after (boot [3, 0, 99] [0, 8]) = (boot [0, 0, 99] [8]).setIp 2 := by decide
/-- V-I5. -/
theorem test_input_bad_destination : after (boot [3, 5, 99] [7, 8]) =
    (boot [3, 5, 99] [8]).raise .outOfBounds := by decide
/-- V-O2. -/
theorem test_output_position : after (boot [4, 2, 99] []) =
    { boot [4, 2, 99] [] with ip := 2, out := [99] } := by decide
/-- V-O5. -/
theorem test_output_bad_address : after (boot [4, -1, 99] []) =
    (boot [4, -1, 99] []).raise .outOfBounds := by decide
/-- V-J4. -/
theorem test_jumpIfTrue_position : after (boot [5, 4, 5, 99, 1, 3] []) =
    (boot [5, 4, 5, 99, 1, 3] []).setIp 3 := by decide
/-- V-J9. -/
theorem test_jumpIfTrue_lazy_target : after (boot [105, 0, 50, 99] []) =
    (boot [105, 0, 50, 99] []).setIp 3 := by decide
/-- V-J14. -/
theorem test_jumpIfFalse_position : after (boot [6, 5, 6, 104, 1, 0, 8, 99, 99] []) =
    (boot [6, 5, 6, 104, 1, 0, 8, 99, 99] []).setIp 8 := by decide
/-- V-J8. -/
theorem test_jumpIfFalse_falls_through : after (boot [1106, 2, 5, 104, 1, 99] []) =
    (boot [1106, 2, 5, 104, 1, 99] []).setIp 3 := by decide
/-- V-C1. -/
theorem test_lessThan_signed : after (boot [1107, -1, 0, 0, 99] []) =
    (boot [1, -1, 0, 0, 99] []).setIp 4 := by decide
/-- V-C5. -/
theorem test_lessThan_extremes : after (boot [1107, maxWord, minWord, 0, 99] []) =
    (boot [0, maxWord, minWord, 0, 99] []).setIp 4 := by decide
/-- V-C7. -/
theorem test_equals_sign : after (boot [1108, 5, -5, 0, 99] []) =
    (boot [0, 5, -5, 0, 99] []).setIp 4 := by decide
/-- V-C8. -/
theorem test_equals_same_cell : after (boot [8, 0, 0, 0, 99] []) =
    (boot [1, 0, 0, 0, 99] []).setIp 4 := by decide
/-- V-H1. -/
theorem test_halt : after (boot [99] []) = { boot [99] [] with ip := 1, st := .halted } := by decide

/-! ### Faults of the decode phase, and the ended machine -/

/-- V-F2. -/
theorem test_empty_program : after (boot [] []) = (boot [] []).raise .outOfBounds := by decide
/-- V-F10. -/
theorem test_reserved_before_operands : after (boot [201, 0, 0] []) =
    (boot [201, 0, 0] []).raise .reservedMode := by decide
/-- V-F15. -/
theorem test_restricted_input : stepUnder arithmeticOnly (boot [3, 0, 99] [1]) =
    .next ((boot [3, 0, 99] [1]).raise .unknownOpcode) := by rfl
/-- V-H6. -/
theorem test_faulted_absorbing : after (after (boot [0] [])) = after (boot [0] []) := by decide
/-- R90 and the table of R111, tests 6 before 10 (V-I7). -/
theorem test_firstFault_order : (boot [3, 5, 99] []).firstFault Config.opset = some .inputExhausted := by
  decide

/-! ### The host operations -/

theorem test_construct_refuses_long : State.construct 1 [1, 2] [] = none := by decide
theorem test_construct_refuses_wide : State.construct 9 [9223372036854775808] [] = none := by decide
theorem test_construct : State.construct 9 [99, 0, -1] [5] = some (boot [99, 0, -1] [5]) := by decide
theorem test_snapshot : (boot [99, 0, -1] []).snapshot = [99, 0, -1] := by decide
theorem test_observe_outside : (boot [99] []).observeCell (-1) = none ∧
    (boot [99] []).observeCell 1 = none := by decide
/-- V-O7, first two outputs cut to one and a Halt. -/
theorem test_execute : execute 2 (boot [104, 1, 99] []) =
    some (.success, { boot [104, 1, 99] [] with ip := 3, st := .halted, out := [1] }) := by rfl
theorem test_pushInput : (boot [99] [1]).pushInput 2 = boot [99] [1, 2] := by decide
theorem test_pushInput_halted : (after (boot [99] [1])).pushInput 2 = after (boot [99] [1]) := by
  decide

/-! ### Witnesses: states and operands that meet the hypotheses of the statements -/

theorem witness_DecodeEncodeRoundTrip :
    Instr.WellFormed arithmeticOnly (.multiply (imm minWord) (pos 3) (pos (-1))) := by decide

theorem witness_DecodeInversion : decode Config.opset [11101, 5, 6, 0, 99] =
    .ok (.add (imm 5) (imm 6) (pos 0), [99]) := by decide

theorem witness_OpcodeWordSpace_negative : (-1 : Word).toInt < 0 := by decide
theorem witness_OpcodeWordSpace_unknown : 0 ≤ (0 : Word).toInt ∧
    ∀ o ∈ Config.opset, o.base ≠ (0 : Word).toNat % 100 := by decide
theorem witness_OpcodeWordSpace_reserved : 0 ≤ maxWord.toInt ∧ Op.lessThan ∈ Config.opset ∧
    Op.lessThan.base = maxWord.toNat % 100 ∧ Op.lessThan.roles[0]? = some .read ∧
    2 ≤ maxWord.toNat / 10 ^ (0 + 2) % 10 := by decide
theorem witness_OpcodeWordSpace_instruction : 0 ≤ (1101 : Word).toInt ∧ Op.add ∈ Config.opset ∧
    Op.add.base = (1101 : Word).toNat % 100 ∧
    ∀ k, Op.add.roles[k]? = some .read → (1101 : Word).toNat / 10 ^ (k + 2) % 10 < 2 := by
  refine ⟨by decide, by decide, by decide, fun k hk => ?_⟩
  rcases k with _ | _ | _ | k
  · decide
  · decide
  · simp [Op.roles] at hk
  · simp [Op.roles] at hk

theorem witness_IgnoredDigits : 0 ≤ (20001 : Word).toInt ∧ 0 ≤ (1 : Word).toInt ∧
    (20001 : Word).toNat % 100 = (1 : Word).toNat % 100 ∧
    ∀ (o : Op) (k : Nat), o.base = (20001 : Word).toNat % 100 → o.roles[k]? = some .read →
      (20001 : Word).toNat / 10 ^ (k + 2) % 10 = (1 : Word).toNat / 10 ^ (k + 2) % 10 := by
  refine ⟨by decide, by decide, by decide, fun o k ho hk => ?_⟩
  cases o <;> first
    | exact absurd ho (by decide)
    | (rcases k with _ | _ | _ | k
       · decide
       · decide
       · simp [Op.roles] at hk
       · simp [Op.roles] at hk)

theorem witness_DecoderReadsOnlyItsWords :
    (boot [104, 7, 99] []).decodeAt Config.opset 0 = .ok ⟨.output (imm 7), 2⟩ ∧
    ∀ j ≤ Op.output.arity, (boot [104, 7, 5, 5] []).memRead (0 + BitVec.ofNat 64 j) =
      (boot [104, 7, 99] []).memRead (0 + BitVec.ofNat 64 j) := by decide

theorem witness_SequentialAdvanceDoesNotWrap_next : (boot [99] []).len ≤ Config.memDepth ∧
    (boot [99] []).decodeAt Config.opset 0 = .ok ⟨.halt, 1⟩ := by decide
theorem witness_SequentialAdvanceDoesNotWrap_end : ((boot [99] []).setIp 1).st = .active ∧
    ((boot [99] []).setIp 1).ip.toInt = ((boot [99] []).setIp 1).len := by decide

theorem witness_MemReadBounds : (-1 : Word).toInt < 0 ∧ ((boot [7] []).len : Int) ≤ (1 : Word).toInt ∧
    0 ≤ (0 : Word).toInt ∧ (0 : Word).toInt < (boot [7] []).len := by decide
theorem witness_MemWriteOverwritesOneCell : minWord.toInt < 0 ∧
    ((boot [7] []).len : Int) ≤ maxWord.toInt ∧ 0 ≤ (0 : Word).toInt ∧
    (0 : Word).toInt < (boot [7] []).len := by decide

theorem boot_inv (program inputs : List Word)
    (h : Memory.wf (boot program inputs).mem ∧
      (∀ c ∈ (boot program inputs).mem, c.1 < (boot program inputs).len) ∧
      (boot program inputs).len ≤ Config.memDepth) : (boot program inputs).Inv :=
  ⟨h.1, h.2.1, h.2.2, by simp [boot, State.load]⟩

theorem witness_Inv : (boot [3, 0, 99] [5]).Inv := boot_inv _ _ (by decide)

theorem witness_CanonicalMemory : (boot [3, 0, 99] [5]).Inv ∧ (boot [3, 0, 99] [6, 7]).Inv ∧
    (boot [3, 0, 99] [5]).len = (boot [3, 0, 99] [6, 7]).len ∧
    ∀ a, (boot [3, 0, 99] [5]).memRead a = (boot [3, 0, 99] [6, 7]).memRead a :=
  ⟨boot_inv _ _ (by decide), boot_inv _ _ (by decide), rfl, fun _ => rfl⟩

theorem witness_StepRunsDecodedInstruction : (boot [1101, -5, 3, 0, 99] []).st = .active ∧
    (boot [1101, -5, 3, 0, 99] []).memRead 0 = .ok 1101 ∧
    (∀ j v, ([-5, 3, 0] : List Word)[j]? = some v →
      (boot [1101, -5, 3, 0, 99] []).memRead (0 + BitVec.ofNat 64 (j + 1)) = .ok v) ∧
    decode Config.opset [1101, -5, 3, 0] = .ok (.add (imm (-5)) (imm 3) (pos 0), []) := by
  refine ⟨by decide, by decide, fun j v hv => ?_, by decide⟩
  rcases j with _ | _ | _ | j
  · cases hv; decide
  · cases hv; decide
  · cases hv; decide
  · simp at hv

theorem witness_EndedMachineDoesNothing : (after (boot [99] [])).st ≠ .active ∧
    (after (boot [0] [])).st ≠ .active := by decide
theorem witness_EndedStatesAbsorbing : (after (boot [0] [])).st ≠ .active ∧
    ∀ m ∈ [Move.step, .pushInput 3], ∀ program inputs, m ≠ .construct program inputs :=
  ⟨by decide, by simp⟩

theorem witness_StepOutcomes : (boot [99] []).st = .active ∧ (boot [99] []).err = none := by decide
theorem witness_FaultPriority : (boot [201, 0, 0] []).st = .active ∧ (boot [201, 0, 0] []).err = none ∧
    (boot [201, 0, 0] []).firstFault Config.opset = some .reservedMode := by decide

theorem witness_FaultEntry_plain : (boot [0] []).st = .active ∧
    stepUnder Config.opset (boot [0] []) = .next (after (boot [0] [])) ∧
    (after (boot [0] [])).st = .faulted := ⟨rfl, rfl, rfl⟩
theorem witness_FaultEntry_input : (boot [3, 5, 99] [7]).st = .active ∧
    stepUnder Config.opset (boot [3, 5, 99] [7]) = .next (after (boot [3, 5, 99] [7])) ∧
    (after (boot [3, 5, 99] [7])).st = .faulted ∧ (after (boot [3, 5, 99] [7])).inq = [] :=
  ⟨rfl, rfl, rfl, rfl⟩

theorem witness_IpLaw_completes : (boot [1105, 1, -5] []).st = .active ∧
    exec (.jumpIfTrue (imm 1) (imm (-5))) (boot [1105, 1, -5] []) =
      .next ((boot [1105, 1, -5] []).setIp (-5)) ∧
    ((boot [1105, 1, -5] []).setIp (-5)).st ≠ .faulted := ⟨rfl, rfl, by decide⟩
theorem witness_IpLaw_faults : (boot [3, 0] []).st = .active ∧
    exec (.input (pos 0)) (boot [3, 0] []) = .next ((boot [3, 0] []).raise .inputExhausted) ∧
    ((boot [3, 0] []).raise .inputExhausted).st = .faulted := ⟨rfl, rfl, rfl⟩

theorem witness_FaultTable : (boot [3, 0] []).st = .active ∧ (boot [3, 0] []).err = none ∧
    (boot [3, 0] []).memRead (boot [3, 0] []).ip = .ok 3 ∧ 0 ≤ (3 : Word).toInt ∧
    (3 : Word).toNat % 100 = Op.input.base ∧
    step (boot [3, 0] []) = .next ((boot [3, 0] []).raise .inputExhausted) ∧
    ((boot [3, 0] []).raise .inputExhausted).err = some .inputExhausted ∧
    FaultKind.inputExhausted ∈ Op.mayRaise .input :=
  ⟨rfl, rfl, rfl, by decide, by decide, rfl, rfl, by decide⟩

theorem witness_RefusedOpcodeWords_negative : (boot [-99] []).st = .active ∧
    (boot [-99] []).memRead (boot [-99] []).ip = .ok (-99) ∧ (-99 : Word).toInt < 0 := by decide
theorem witness_RefusedOpcodeWords_unknown : (boot [3, 0] []).memRead (boot [3, 0] []).ip = .ok 3 ∧
    0 ≤ (3 : Word).toInt ∧ ∀ o ∈ arithmeticOnly, o.base ≠ (3 : Word).toNat % 100 := by decide
theorem witness_RefusedOpcodeWords_reserved : (boot [2105] []).memRead (boot [2105] []).ip = .ok 2105 ∧
    0 ≤ (2105 : Word).toInt ∧ Op.jumpIfTrue ∈ Config.opset ∧
    Op.jumpIfTrue.base = (2105 : Word).toNat % 100 ∧ Op.jumpIfTrue.roles[1]? = some .read ∧
    2 ≤ (2105 : Word).toNat / 10 ^ (1 + 2) % 10 := by decide

theorem witness_FetchFaults_ip : ((boot [99] []).setIp (-1)).st = .active ∧
    ((boot [99] []).setIp (-1)).ip.toInt < 0 ∧
    (((boot [99] []).setIp 1).len : Int) ≤ ((boot [99] []).setIp 1).ip.toInt := by decide
theorem witness_FetchFaults_truncated : (boot [1, 0, 0] []).memRead (boot [1, 0, 0] []).ip = .ok 1 ∧
    decodeHead Config.opset 1 = .ok ⟨.add, [.position, .position, .position]⟩ ∧
    3 ≤ Op.add.arity ∧ ¬ (boot [1, 0, 0] []).InBounds ((boot [1, 0, 0] []).ip + BitVec.ofNat 64 3) := by
  decide

theorem witness_RestrictedOpset : (boot [3, 0] [1]).st = .active ∧
    (boot [3, 0] [1]).memRead (boot [3, 0] [1]).ip = .ok 3 ∧ 0 ≤ (3 : Word).toInt ∧
    (3 : Word).toNat % 100 = Op.input.base ∧ Op.input ∉ arithmeticOnly ∧ Op.input ∈ Config.opset := by
  decide

theorem witness_StoreSeenByFetch_refused : (boot [99] []).st = .active ∧
    (boot [99] []).memWrite 0 50 = .ok (boot [50] []) ∧
    decodeHead Config.opset 50 = .error .unknownOpcode := by decide
theorem witness_StoreSeenByFetch_runs : (boot [0, 7] []).st = .active ∧
    (boot [0, 7] []).memWrite 0 104 = .ok (boot [104, 7] []) ∧
    (boot [104, 7] []).memRead (0 + BitVec.ofNat 64 (0 + 1)) = .ok 7 ∧
    decode Config.opset [104, 7] = .ok (.output (imm 7), []) := by decide

theorem witness_StepReadsOnlyItsCells : (boot [4, 2, 99, 1] []).st = .active ∧
    (boot [4, 2, 99, 1] []).decodeAt Config.opset 0 = .ok ⟨.output (pos 2), 2⟩ ∧
    (∀ j ≤ Op.output.arity, ((boot [4, 2, 99, 1] []).setMem (boot [4, 2, 99, 8] []).mem).memRead
        (0 + BitVec.ofNat 64 j) = (boot [4, 2, 99, 1] []).memRead (0 + BitVec.ofNat 64 j)) ∧
    ∀ a ∈ (boot [4, 2, 99, 1] []).operandCells (.output (pos 2)),
      ((boot [4, 2, 99, 1] []).setMem (boot [4, 2, 99, 8] []).mem).memRead a =
        (boot [4, 2, 99, 1] []).memRead a :=
  ⟨by decide, by decide, by decide, fun a ha => by
    obtain rfl : a = 2 := by simpa [State.operandCells, readCell, pos] using ha
    decide⟩

theorem witness_StepKeepsInv : (boot [3, 0, 99] [5]).Inv ∧
    stepUnder Config.opset (boot [3, 0, 99] [5]) = .next (after (boot [3, 0, 99] [5])) :=
  ⟨witness_Inv, rfl⟩
theorem witness_StateInvariants : ((boot [104, 1] []).err ≠ none ↔ (boot [104, 1] []).st = .faulted) ∧
    step (boot [104, 1] []) = .next (after (boot [104, 1] [])) := ⟨by decide, rfl⟩
theorem witness_OutAppendOnly :
    ∀ m ∈ [Move.pushInput 3, .step, .step], ∀ program inputs, m ≠ .construct program inputs := by simp
theorem witness_SafeRunIffNoTestMet : (boot [3, 0, 99] [5]).Inv ∧ (boot [3, 0, 99] [5]).Safe :=
  ⟨witness_Inv, by simp [State.Safe, boot, State.load]⟩

theorem witness_AddResult : (boot [5, 6, 0] []).resolve (pos 0) = .ok 5 ∧
    (boot [5, 6, 0] []).resolve (imm (-8)) = .ok (-8) ∧ Fits ((5 : Word).toInt + (-8 : Word).toInt) ∧
    (boot [5, 6, 0] []).InBounds (writeAddr (pos 2)) := by decide
theorem witness_MultiplyResult : (boot [5, 6, 0] []).resolve (imm minWord) = .ok minWord ∧
    (boot [5, 6, 0] []).resolve (imm 1) = .ok 1 ∧ Fits (minWord.toInt * (1 : Word).toInt) ∧
    (boot [5, 6, 0] []).InBounds (writeAddr (pos 0)) := by decide
theorem witness_ComparisonResults : (boot [5, 6, 0] []).resolve (pos 0) = .ok 5 ∧
    (boot [5, 6, 0] []).resolve (pos 1) = .ok 6 ∧
    (boot [5, 6, 0] []).InBounds (writeAddr (imm 2)) := by decide
theorem witness_OverflowFaults : (boot [] []).resolve (imm maxWord) = .ok maxWord ∧
    (boot [] []).resolve (imm 2) = .ok 2 ∧ ¬ Fits (maxWord.toInt + (2 : Word).toInt) ∧
    ¬ Fits (maxWord.toInt * (2 : Word).toInt) := by decide
theorem witness_ArithmeticLaws : (boot [0] []).InBounds (writeAddr (pos 0)) ∧ maxWord.toInt ≠ wmin ∧
    minWord.toInt = wmin ∧ minWord.toInt < 0 ∧ 0 ≤ maxWord.toInt := by decide

theorem witness_InputResult : (boot [3, 0] [7, 8]).inq = 7 :: [8] ∧
    (boot [3, 0] [7, 8]).InBounds (writeAddr (pos 1)) := by decide
theorem witness_InputBadDestination : (boot [3, 0] [7, 8]).inq = 7 :: [8] ∧
    ¬ (boot [3, 0] [7, 8]).InBounds (writeAddr (pos 2)) := by decide
theorem witness_InputEmpty : (boot [3, 0] []).inq = [] := by decide
theorem witness_OutputResult : (boot [4, 0] []).resolve (pos 1) = .ok 0 := by decide
theorem witness_JumpIfTrueResult_not_fired : (boot [5, 0] []).resolve (pos 1) = .ok 0 := by decide
theorem witness_JumpIfTrueResult_fired : (boot [5, 0] []).resolve (imm (-3)) = .ok (-3) ∧
    (-3 : Word) ≠ 0 ∧ (boot [5, 0] []).resolve (pos 0) = .ok 5 := by decide
theorem witness_JumpIfFalseResult_not_fired : (boot [6, 0] []).resolve (pos 0) = .ok 6 ∧
    (6 : Word) ≠ 0 := by decide
theorem witness_JumpIfFalseResult_fired : (boot [6, 0] []).resolve (pos 1) = .ok 0 ∧
    (boot [6, 0] []).resolve (imm 9) = .ok 9 := by decide
theorem witness_WildTarget : (boot [1105, 1, -5] []).st = .active ∧
    (boot [1105, 1, -5] []).resolve (imm 1) = .ok 1 ∧ (1 : Word) ≠ 0 ∧
    (boot [1105, 1, -5] []).resolve (imm 0) = .ok 0 ∧
    (boot [1105, 1, -5] []).resolve (pos 2) = .ok (-5) ∧ (-5 : Word).toInt < 0 ∧
    ((boot [1105, 1, -5] []).len : Int) ≤ (3 : Word).toInt := by decide

theorem witness_BadAddressFaults_first : (pos 1).mode = .position ∧
    ¬ (boot [1] []).InBounds (pos 1).raw ∧ ¬ (boot [1] []).InBounds (pos (-1)).raw := by decide
theorem witness_BadAddressFaults_second : (boot [0] []).resolve (imm 4) = .ok 4 ∧ (4 : Word) ≠ 0 ∧
    (boot [0] []).resolve (pos 0) = .ok 0 ∧ (pos 1).mode = .position ∧
    ¬ (boot [0] []).InBounds (pos 1).raw := by decide
theorem witness_BadAddressFaults_destination : (boot [0] []).resolve (imm 4) = .ok 4 ∧
    (boot [0] []).resolve (pos 0) = .ok 0 ∧ ¬ (boot [0] []).InBounds (writeAddr (pos 1)) ∧
    Fits ((4 : Word).toInt + (0 : Word).toInt) ∧ Fits ((4 : Word).toInt * (0 : Word).toInt) := by decide

theorem witness_StoringFrame : Instr.input (pos 0) ∈ [Instr.add (pos 0) (pos 0) (pos 0),
      .multiply (pos 0) (pos 0) (pos 0), .lessThan (pos 0) (pos 0) (pos 0),
      .equals (pos 0) (pos 0) (pos 0), .input (pos 0)] ∧
    exec (.input (pos 0)) (boot [3, 0] [7]) = .next (after (boot [3, 0] [7])) ∧
    (1 : Word) ≠ writeAddr (pos 0) := ⟨by decide, rfl, by decide⟩
theorem witness_NonStoringFrame : Instr.output (imm 1) ∈ [Instr.output (imm 1),
      .jumpIfTrue (imm 1) (pos 0), .jumpIfFalse (imm 1) (pos 0), .halt] ∧
    exec (.output (imm 1)) (boot [104, 1] []) = .next (after (boot [104, 1] [])) := ⟨by decide, rfl⟩

theorem witness_ConstructRule_accepted : 3 ≤ Config.memDepth ∧
    ([99, wmin, wmax] : List Int).length ≤ 3 ∧ (∀ v ∈ ([99, wmin, wmax] : List Int), Fits v) ∧
    ∀ v ∈ ([-1] : List Int), Fits v := by
  simp only [List.forall_mem_cons]
  refine ⟨by decide, by decide, ⟨by decide, by decide, by decide, by simp⟩, by decide, by simp⟩
theorem witness_ConstructRule_refused : 1 ≤ Config.memDepth ∧
    ¬ (([99, 1] : List Int).length ≤ 1 ∧ (∀ v ∈ ([99, 1] : List Int), Fits v) ∧
      ∀ v ∈ ([] : List Int), Fits v) := by decide
theorem witness_PushInputRule : (boot [99] []).st = .active ∧ (after (boot [99] [])).st ≠ .active := by
  decide
theorem witness_ObserveRule : (-1 : Int) < 0 ∧ ((boot [99] []).len : Int) ≤ 1 ∧
    (boot [99] []).memRead 0 = .ok 99 := by decide
/-- A jump to itself (R79) reaches a state with the readings it had. -/
theorem witness_ObserveRule_nothing_hidden : (boot [1105, 1, 0] []).Inv ∧
    (after (boot [1105, 1, 0] [])).Inv ∧
    (boot [1105, 1, 0] []).observe = (after (boot [1105, 1, 0] [])).observe ∧
    (boot [1105, 1, 0] []).snapshot = (after (boot [1105, 1, 0] [])).snapshot := by
  have h : after (boot [1105, 1, 0] []) = boot [1105, 1, 0] [] := by decide
  rw [h]
  exact ⟨boot_inv _ _ (by decide), boot_inv _ _ (by decide), rfl, rfl⟩
theorem witness_ExecuteRule : execute 1 (boot [0] []) =
    some (.failure (some .unknownOpcode) 0, after (boot [0] [])) := by rfl
/-- The run ends with its last unit of fuel. -/
theorem witness_ExecuteRule_returns : 2 ≤ 2 ∧ (stepN 1 (boot [104, 1, 99] [])).st = .active ∧
    (stepN 2 (boot [104, 1, 99] [])).st ≠ .active := by decide
/-- An ended machine needs no fuel. -/
theorem witness_ExecuteRule_returns_at_once : 0 ≤ 0 ∧
    (stepN 0 (after (boot [99] []))).st ≠ .active := by decide
theorem witness_PlacedInstructionRuns :
    decodeTableWord 8 99 = some .halt := by decide

end Sys2Proof.Tests
end

section
/-! PROOFS. The family spec/10_state.md: sequential advance (R18), the state invariants (R27) and
construction (R31, R32). -/

namespace Sys2Proof.Machine

/-! ### Sequential advance (R18) -/

section Advance

variable {s : State} {ops : OpSet} {a : Word}

/-- The word of a cell index within `MEM_DEPTH` has that index as its signed value. -/
theorem toInt_ofNat_of_le_memDepth {i : Nat} (h : i ≤ Config.memDepth) :
    (BitVec.ofNat 64 i).toInt = i := by
  rw [← BitVec.ofInt_natCast]
  exact toInt_ofInt_of_fits ⟨by simp only [wmin]; omega, by
    simp only [Config.memDepth] at h; simp only [wmax]; omega⟩

/-- Past a cell of memory the pointer moves on by one without wrapping. -/
theorem State.InBounds.toInt_add_one (hl : s.len ≤ Config.memDepth) (h : s.InBounds a) :
    (a + 1).toInt = a.toInt + 1 := by
  obtain ⟨h0, hlt⟩ := h
  simp only [Config.memDepth] at hl
  have hone : (1 : Word).toInt = 1 := rfl
  rw [BitVec.toInt_add, hone]
  exact Int.bmod_eq_of_le (by omega) (by omega)

/-- Past consecutive cells of memory the pointer moves on by their number without wrapping. -/
theorem State.toInt_add_of_inBounds (hl : s.len ≤ Config.memDepth) {n : Nat}
    (h : ∀ j < n, s.InBounds (a + BitVec.ofNat 64 j)) :
    (a + BitVec.ofNat 64 n).toInt = a.toInt + n := by
  induction n with
  | zero => simp
  | succ n ih =>
    have hstep := (h n n.lt_succ_self).toInt_add_one hl
    rw [ih fun j hj => h j (hj.trans n.lt_succ_self)] at hstep
    rw [BitVec.ofNat_add, ← BitVec.add_assoc, Nat.cast_add_one, ← Int.add_assoc]
    exact hstep

/-- Every word of a decoded instruction lies in memory. -/
theorem State.decodeAt_inBounds {ir : Decoded} (h : s.decodeAt ops a = .ok ir) :
    ∀ j ≤ ir.instr.op.arity, s.InBounds (a + BitVec.ofNat 64 j) := by
  obtain ⟨w, hd, raws, hw, -, hf, hb⟩ := State.decodeAt_ok.1 h
  obtain ⟨hlen, -, hraws⟩ := State.fetchOperands_ok.1 hf
  rw [(Head.build_ok.1 hb).1, ← hlen]
  rintro (_ | j) hj
  · simpa using (State.memRead_ok.1 hw).1
  · rw [add_ofNat_succ]
    exact (State.memRead_ok.1 (hraws j _ (List.getElem?_eq_getElem hj))).1

/-- An active machine whose `IP` is no address of memory faults in the fetch. -/
theorem stepUnder_of_ip_not_inBounds (hs : s.st = .active) (h : ¬ s.InBounds s.ip) :
    stepUnder ops s = .next (s.raise .outOfBounds) :=
  stepUnder_active_error hs (State.decodeAt_error.2 (.inl (State.memRead_of_not_inBounds h)))

end Advance

/-- Settles O7: all words of a decoded instruction are in bounds, so `DP` never passes `LEN`, which
is at most `WMAX`. -/
theorem sequentialAdvanceDoesNotWrap : Obligations.SequentialAdvanceDoesNotWrap := by
  unfold Obligations.SequentialAdvanceDoesNotWrap
  refine ⟨fun ops s a ir hl h => ?_, fun s hs hip => ?_⟩
  · have hnext := State.decodeAt_next h
    have hin := State.decodeAt_inBounds h
    have hlast := State.toInt_add_of_inBounds hl fun j hj => hin j (Nat.le_of_lt hj)
    have hto := State.toInt_add_of_inBounds hl fun j hj => hin j (Nat.le_of_lt_succ hj)
    rw [← Nat.one_add, ← Op.length_eq, ← hnext, Op.length_eq] at hto
    have hlt := (hin _ le_rfl).2
    exact ⟨ir.instr.op.arity_le, hnext, by omega, by omega⟩
  · exact stepUnder_of_ip_not_inBounds hs fun hb => by have := hb.2; omega

/-! ### The state invariants (R27) -/

section Evolves

variable {s t : State} {ops : OpSet}

/-- What R27 allows one step to do to a state: `ERR` stays in line with `ST`, `LEN` is fixed, `OUT`
grows at its end, `INQ` shrinks at its head, and a fault leaves `IP` at the faulting instruction. -/
structure State.Evolves (s t : State) : Prop where
  errIffFault : (s.err ≠ none ↔ s.st = .faulted) → (t.err ≠ none ↔ t.st = .faulted)
  lenFixed    : t.len = s.len
  outGrows    : s.out <+: t.out
  inqShrinks  : t.inq <:+ s.inq
  ipOfFault   : s.st = .active → t.st = .faulted → t.ip = s.ip

/-- A step outside `ACTIVE` changes nothing. -/
theorem State.Evolves.refl (s : State) : s.Evolves s :=
  ⟨id, rfl, List.prefix_rfl, List.suffix_rfl, fun _ _ => rfl⟩

/-- Fault entry, with the head of `INQ` taken or not. -/
theorem State.Evolves.of_fault {q : List Word} (hq : q <:+ s.inq) (k : FaultKind) :
    s.Evolves ((s.setInq q).raise k) where
  errIffFault _ := by simp
  lenFixed := rfl
  outGrows := List.prefix_rfl
  inqShrinks := hq
  ipOfFault _ _ := rfl

/-- A completed instruction leaves `ERR` alone and does not enter `FAULTED`, so it may put `IP`
anywhere. -/
theorem State.Evolves.of_completed (hs : s.st = .active) (hst : t.st ≠ .faulted)
    (herr : t.err = s.err) (hlen : t.len = s.len) (hout : s.out <+: t.out)
    (hinq : t.inq <:+ s.inq) : s.Evolves t where
  errIffFault h := by simpa [herr, hst, hs] using h
  lenFixed := hlen
  outGrows := hout
  inqShrinks := hinq
  ipOfFault _ h := absurd h hst

/-- The execute phase evolves the state as R27 says, whatever the instruction. -/
theorem exec_evolves {i : Instr} (hs : s.st = .active) (h : exec i s = .next t) :
    s.Evolves t := by
  obtain ⟨u, hu, hcases⟩ := exec_cases i s
  cases hu.symm.trans h
  obtain ⟨k, rfl⟩ | ⟨dst, v, rest, -, hq, -, rfl⟩ | ⟨dst, r, -, -, -, rfl⟩ |
    ⟨dst, v, rest, -, hq, -, rfl⟩ | ⟨p1, v, -, -, rfl⟩ | ⟨-, ⟨target, rfl⟩ | rfl⟩ | ⟨-, rfl⟩ :=
    hcases
  · exact .of_fault List.suffix_rfl k
  · exact .of_fault (by simp [hq]) .outOfBounds
  · exact .of_completed hs (by simp [hs]) rfl rfl List.prefix_rfl List.suffix_rfl
  · exact .of_completed hs (by simp [hs]) rfl rfl List.prefix_rfl (by simp [hq])
  · exact .of_completed hs (by simp [hs]) rfl rfl (List.prefix_append _ _) List.suffix_rfl
  · exact .of_completed hs (by simp [hs]) rfl rfl List.prefix_rfl List.suffix_rfl
  · exact .of_completed hs (by simp [hs]) rfl rfl List.prefix_rfl List.suffix_rfl
  · exact .of_completed hs (by simp) rfl rfl List.prefix_rfl List.suffix_rfl

/-- So does a whole step, under every `OPSET` and in every run state. -/
theorem stepUnder_evolves (h : stepUnder ops s = .next t) : s.Evolves t := by
  obtain ⟨-, he⟩ | ⟨-, k, -, he⟩ | ⟨hs, ir, -, he⟩ := stepUnder_cases ops s
  · cases he.symm.trans h
    exact .refl s
  · cases he.symm.trans h
    exact .of_fault List.suffix_rfl k
  · exact exec_evolves hs (he.symm.trans h)

end Evolves

/-- While `ACTIVE` the pushed word goes to the tail of `INQ`. -/
theorem State.pushInput_of_active {s : State} (hs : s.st = .active) (v : Word) :
    s.pushInput v = s.setInq (s.inq ++ [v]) := by
  simp only [State.pushInput, hs]

/-- An ended machine takes no input. -/
theorem State.pushInput_of_not_active {s : State} (hs : s.st ≠ .active) (v : Word) :
    s.pushInput v = s := by
  unfold State.pushInput
  cases h : s.st with
  | active => exact absurd h hs
  | halted => rfl
  | faulted => rfl

/-- Settles O29, from what a step and a push can do to a state. -/
theorem stateInvariants : Obligations.StateInvariants := by
  unfold Obligations.StateInvariants
  refine ⟨fun s t herr h => ?_, fun s v => ?_⟩
  · obtain ⟨herr', hlen, hout, hinq, hip⟩ := stepUnder_evolves h
    exact ⟨herr' herr, hlen, hout, hinq, hip⟩
  · by_cases hs : s.st = .active
    · rw [State.pushInput_of_active hs]
      exact ⟨rfl, List.prefix_append _ _⟩
    · rw [State.pushInput_of_not_active hs]
      exact ⟨rfl, List.prefix_rfl⟩

/-! ### Construction (R31, R32) -/

/-- The value of a word is in the word range. -/
theorem fits_toInt (w : Word) : Fits w.toInt :=
  ⟨BitVec.le_toInt w, Int.le_of_lt_add_one (BitVec.toInt_lt (x := w))⟩

/-- Integers in the word range are the values of a list of words. -/
theorem exists_words_of_fits {vs : List Int} (h : ∀ v ∈ vs, Fits v) :
    ∃ ws : List Word, ws.map BitVec.toInt = vs := by
  refine ⟨vs.map (BitVec.ofInt 64), ?_⟩
  rw [List.map_map]
  exact (List.map_congr_left fun v hv => toInt_ofInt_of_fits (h v hv)).trans (List.map_id vs)

/-- The values of words are all in the word range. -/
theorem fits_of_words {ws : List Word} {vs : List Int} (h : ws.map BitVec.toInt = vs) :
    ∀ v ∈ vs, Fits v := by
  subst h
  exact List.forall_mem_map.2 fun w _ => fits_toInt w

/-- The word of an integer is the word with that value. -/
theorem wordOf?_eq_some {v : Int} {w : Word} : wordOf? v = some w ↔ w.toInt = v := by
  unfold wordOf?
  constructor
  · intro h
    split at h
    · next hv => cases h; exact toInt_ofInt_of_fits hv
    · cases h
  · rintro rfl
    rw [if_pos (fits_toInt w), BitVec.ofInt_toInt]

/-- The words of a list of integers are the words with those values. -/
theorem wordsOf?_eq_some {vs : List Int} {ws : List Word} :
    wordsOf? vs = some ws ↔ ws.map BitVec.toInt = vs := by
  induction vs generalizing ws with
  | nil => simp [wordsOf?, @eq_comm _ [] ws]
  | cons v vs ih =>
    rw [wordsOf?, List.map_eq_cons_iff]
    constructor
    · intro h
      split at h
      · next w us hw hus => cases h; exact ⟨w, us, rfl, wordOf?_eq_some.1 hw, ih.1 hus⟩
      · cases h
    · rintro ⟨w, us, rfl, hw, hus⟩
      rw [wordOf?_eq_some.2 hw, ih.2 hus]

/-- Everything that makes a construction succeed, and the state it gives. -/
theorem State.construct_eq_some {depth : Nat} {program inputs : List Int} {s : State} :
    State.construct depth program inputs = some s ↔
      program.length ≤ depth ∧ ∃ ws vs : List Word, ws.map BitVec.toInt = program ∧
        vs.map BitVec.toInt = inputs ∧ s = State.load ws vs := by
  unfold State.construct
  simp only [← wordsOf?_eq_some]
  by_cases hl : program.length ≤ depth
  · rw [if_pos hl, and_iff_right hl]
    cases wordsOf? program <;> cases wordsOf? inputs <;> simp [@eq_comm _ _ s]
  · simp [hl]

/-- Cell `i` of a loaded program reads as its word `i` (R31: `MEM[i] = program[i]`). -/
theorem State.memRead_load {program inputs : List Word} {i : Nat} {w : Word}
    (hl : program.length ≤ Config.memDepth) (h : program[i]? = some w) :
    (State.load program inputs).memRead (BitVec.ofNat 64 i) = .ok w := by
  obtain ⟨hi, rfl⟩ := List.getElem?_eq_some_iff.1 h
  have hint := toInt_ofNat_of_le_memDepth (hi.le.trans hl)
  have hb : (State.load program inputs).InBounds (BitVec.ofNat 64 i) :=
    State.inBounds_iff.2 (by rw [hint]; exact ⟨by omega, Int.ofNat_lt.2 hi⟩)
  have hnat : (BitVec.ofNat 64 i).toNat = i := by
    have := toInt_eq_toNat hb.1
    omega
  have hread := Memory.read_ofWordsFrom program 0 i
  rw [Nat.zero_add, List.getD_eq_getElem _ _ hi] at hread
  rw [State.memRead_of_inBounds hb, hnat]
  exact congrArg _ hread

/-- Settles O50: construction succeeds exactly when program and inputs are the values of words and
the program fits into memory, and then it loads these words. -/
theorem constructRule : Obligations.ConstructRule := by
  unfold Obligations.ConstructRule
  refine fun depth program inputs hdepth => ⟨?_, fun hbad => ?_⟩
  · rintro ⟨hl, hp, hi⟩
    obtain ⟨ws, rfl⟩ := exists_words_of_fits hp
    obtain ⟨vs, rfl⟩ := exists_words_of_fits hi
    refine ⟨State.load ws vs, State.construct_eq_some.2 ⟨hl, ws, vs, rfl, rfl, rfl⟩,
      (List.length_map _).symm, rfl, rfl, rfl, rfl, rfl, fun i v hv => ?_⟩
    rw [List.length_map] at hl
    rw [List.getElem?_map, Option.map_eq_some_iff] at hv
    obtain ⟨w, hw, rfl⟩ := hv
    exact ⟨w, rfl, State.memRead_load (hl.trans hdepth) hw⟩
  · refine Option.eq_none_iff_forall_ne_some.2 fun s hs => hbad ?_
    obtain ⟨hl, ws, vs, hp, hi, -⟩ := State.construct_eq_some.1 hs
    exact ⟨hl, fits_of_words hp, fits_of_words hi⟩

end Sys2Proof.Machine
end

section
/-! PROOFS. The family spec/20_memory.md: the three operations of the Memory block (R38 to R40). -/

namespace Sys2Proof.Machine

/-- An address fails the signed check below zero and from `LEN` on (R38, R39). -/
theorem State.not_inBounds_iff {s : State} {a : Word} :
    ¬ s.InBounds a ↔ a.toInt < 0 ∨ (s.len : Int) ≤ a.toInt := by
  rw [State.inBounds_iff, not_and_or, not_le, not_lt]

/-- Settles O9: the state after an in-bounds write is `s` with the new memory, in which only the
cell `a` reads differently. -/
theorem memWriteOverwritesOneCell : Obligations.MemWriteOverwritesOneCell := by
  unfold Obligations.MemWriteOverwritesOneCell
  refine fun s a v => ⟨fun hout => ?_, fun h0 hlt => ?_⟩
  · exact State.memWrite_of_not_inBounds (State.not_inBounds_iff.2 hout)
  · have hin : s.InBounds a := ⟨h0, hlt⟩
    refine ⟨_, State.memWrite_of_inBounds hin, ?_, fun b hb => ?_, rfl⟩
    · rw [State.memRead_store hin, if_pos rfl]
    · rw [State.memRead_store hin, if_neg hb]

/-- Settles O8: the two clauses are the two outcomes of the bounds check. -/
theorem memReadBounds : Obligations.MemReadBounds := by
  unfold Obligations.MemReadBounds
  exact fun s a => ⟨fun hout => State.memRead_of_not_inBounds (State.not_inBounds_iff.2 hout),
    fun h0 hlt => State.memRead_of_inBounds ⟨h0, hlt⟩⟩

/-- Settles O10, one law of `Resolve` for each mode. -/
theorem resolveRule : Obligations.ResolveRule := by
  unfold Obligations.ResolveRule
  exact fun _ raw => ⟨State.resolve_immediate raw, State.resolve_position raw⟩

end Sys2Proof.Machine
end

section
/-! PROOFS. The family spec/30_encoding.md: the opcode word by itself (R60, R65 to R68). -/

namespace Sys2Proof

variable {ops : OpSet} {w u : Word} {o : Op}

/-! ### The outcomes of an opcode word -/

/-- The digit the statements name for parameter `k + 1` is the one `modesFrom` tests for it (R56). -/
theorem digit_one_add (k : Nat) (w : Word) : digit (1 + k + 1) w = w.toNat / 10 ^ (k + 2) % 10 := by
  rw [digit, Nat.add_comm 1 k]

/-- A negative opcode word is refused (R60). -/
theorem decodeHead_of_neg (hw : w.toInt < 0) : decodeHead ops w = .error .unknownOpcode := by
  simp only [decodeHead, hw, if_true]

/-- A base opcode of no kind of `OPSET` is refused (R66). -/
theorem decodeHead_of_not_registered (hw : 0 ≤ w.toInt) (hu : ∀ o ∈ ops, o.base ≠ baseOf w) :
    decodeHead ops w = .error .unknownOpcode := by
  unfold decodeHead
  rw [if_neg (Int.not_lt.2 hw)]
  cases hb : Op.ofBase? (baseOf w) with
  | none => rfl
  | some o => exact if_neg fun ho => hu o ho (Op.ofBase?_eq_some.1 hb).symm

/-- A base opcode of `OPSET` leaves the outcome to the mode digits (R57, R61). -/
theorem decodeHead_of_registered (hw : 0 ≤ w.toInt) (ho : o ∈ ops) (hb : o.base = baseOf w) :
    decodeHead ops w = (modesFrom w 1 o.roles).map (Head.mk o) := by
  unfold decodeHead
  rw [if_neg (Int.not_lt.2 hw), Op.ofBase?_eq_some.2 hb.symm]
  dsimp only
  rw [if_pos ho]
  cases modesFrom w 1 o.roles <;> rfl

/-- A reserved digit on a read parameter is refused (R65). -/
theorem decodeHead_of_reserved (hw : 0 ≤ w.toInt) (ho : o ∈ ops) (hb : o.base = baseOf w)
    (hr : ∃ k, o.roles[k]? = some .read ∧ 2 ≤ w.toNat / 10 ^ (k + 2) % 10) :
    decodeHead ops w = .error .reservedMode := by
  have hm : modesFrom w 1 o.roles = .error .reservedMode :=
    modesFrom_error.2 ⟨by simpa only [digit_one_add] using hr, rfl⟩
  rw [decodeHead_of_registered hw ho hb, hm]
  rfl

/-- Otherwise each parameter has the mode of its digit (R57, R58). -/
theorem decodeHead_of_not_reserved (hw : 0 ≤ w.toInt) (ho : o ∈ ops) (hb : o.base = baseOf w)
    (hr : ∀ k, o.roles[k]? = some .read → w.toNat / 10 ^ (k + 2) % 10 < 2) :
    decodeHead ops w =
      .ok ⟨o, o.roles.mapIdx fun k r => r.modeFor (w.toNat / 10 ^ (k + 2) % 10)⟩ := by
  refine decodeHead_ok.2 ⟨Int.not_lt.2 hw, hb.symm, ho, modesFrom_ok.2 ⟨?_, ?_⟩⟩
  · simpa only [digit_one_add] using hr
  · simp only [digit_one_add]

/-- Settles O3, one lemma for each row of the table of R68. -/
theorem opcodeWordSpace : Obligations.OpcodeWordSpace := by
  unfold Obligations.OpcodeWordSpace
  exact fun ops w => ⟨decodeHead_of_neg, decodeHead_of_not_registered,
    fun hw _ ho hb => decodeHead_of_reserved hw ho hb,
    fun hw _ ho hb => decodeHead_of_not_reserved hw ho hb⟩

/-! ### Ignored digits (R67) -/

/-- Only the digit of a read parameter is looked at (R58). -/
theorem Role.modeOf_congr {r : Role} {d e : Nat} (h : r = .read → d = e) :
    r.modeOf d = r.modeOf e := by
  cases r with
  | read => rw [h rfl]
  | write => rfl

/-- The modes depend on the digits of the read parameters and on nothing else of the word. -/
theorem modesFrom_congr {rs : List Role} {n : Nat}
    (h : ∀ j, rs[j]? = some .read → digit (n + j + 1) w = digit (n + j + 1) u) :
    modesFrom w n rs = modesFrom u n rs := by
  induction rs generalizing n with
  | nil => rfl
  | cons r rs ih =>
    have hhead : r.modeOf (digit (n + 1) w) = r.modeOf (digit (n + 1) u) :=
      Role.modeOf_congr fun hr => h 0 (congrArg some hr)
    have htail : modesFrom w (n + 1) rs = modesFrom u (n + 1) rs :=
      ih fun j hj => by rw [Nat.add_right_comm n 1 j]; exact h (j + 1) hj
    rw [modesFrom, modesFrom, hhead, htail]

/-- Settles O4: both words select the same kind of `OPSET`, or none, and the modes depend on the
digits they share. -/
theorem ignoredDigits : Obligations.IgnoredDigits := by
  unfold Obligations.IgnoredDigits
  refine ⟨fun ops w u hw hu hbase hdig => ?_, by decide, by decide, by decide⟩
  by_cases hreg : ∃ o ∈ ops, o.base = baseOf w
  · obtain ⟨o, ho, hb⟩ := hreg
    have hmodes : modesFrom w 1 o.roles = modesFrom u 1 o.roles :=
      modesFrom_congr fun k hk => by simpa only [digit_one_add] using hdig o k hb hk
    rw [decodeHead_of_registered hw ho hb, decodeHead_of_registered hu ho (hb.trans hbase), hmodes]
  · have hnone : ∀ o ∈ ops, o.base ≠ baseOf w := fun o ho hb => hreg ⟨o, ho, hb⟩
    rw [decodeHead_of_not_registered hw hnone,
      decodeHead_of_not_registered hu fun o ho hb => hnone o ho (hb.trans hbase.symm)]

end Sys2Proof

namespace Sys2Proof.Machine

/-! ### Refused opcode words (R60, R65, R66) -/

/-- A refused opcode word faults before any operand word is fetched. -/
theorem stepUnder_of_decodeHead_error {ops : OpSet} {s : State} {w : Word} {k : FaultKind}
    (hs : s.st = .active) (hw : s.memRead s.ip = .ok w) (hd : decodeHead ops w = .error k) :
    stepUnder ops s = .next (s.raise k) :=
  stepUnder_active_error hs (State.decodeAt_error.2 (.inr ⟨w, hw, .inl hd⟩))

/-- Settles O20: the refusals of `decodeHead` are those of the step. -/
theorem refusedOpcodeWords : Obligations.RefusedOpcodeWords := by
  unfold Obligations.RefusedOpcodeWords
  refine fun ops s w hs hw => ⟨fun hneg => ?_, fun h0 hu => ?_, fun h0 o ho hb hr => ?_⟩
  · exact stepUnder_of_decodeHead_error hs hw (decodeHead_of_neg hneg)
  · exact stepUnder_of_decodeHead_error hs hw (decodeHead_of_not_registered h0 hu)
  · exact stepUnder_of_decodeHead_error hs hw (decodeHead_of_reserved h0 ho hb hr)

end Sys2Proof.Machine
end

section
/-! PROOFS. The family spec/40_step_and_dispatch.md: `IP` after an instruction (R76) and the ended
machine (R78). -/

namespace Sys2Proof.Machine

variable {s t : State}

/-! ### `IP` after an instruction (R76) -/

/-- An instruction that is no jump and completes leaves `IP` past its words. -/
theorem exec_ip_of_not_jump {i : Instr} (hj : ¬ (i.op = .jumpIfTrue ∨ i.op = .jumpIfFalse))
    (h : exec i s = .next t) (ht : t.st ≠ .faulted) :
    t.ip = s.ip + BitVec.ofNat 64 i.op.length := by
  obtain ⟨u, hu, hcases⟩ := exec_cases i s
  cases hu.symm.trans h
  obtain ⟨k, rfl⟩ | ⟨dst, v, rest, -, -, -, rfl⟩ | ⟨dst, r, -, -, -, rfl⟩ |
    ⟨dst, v, rest, rfl, -, -, rfl⟩ | ⟨p1, v, rfl, -, rfl⟩ | ⟨hjump, -⟩ | ⟨rfl, rfl⟩ := hcases
  · exact absurd rfl ht
  · exact absurd rfl ht
  · rfl
  · rfl
  · rfl
  · exact absurd hjump hj
  · rfl

/-- A jump that completes goes on past its words if its condition does not fire, and to the resolved
target if it does. -/
theorem State.settle_jump_ip {o : Op} {fires : Word → Bool} {p1 p2 : Param}
    (h : s.settle (s.jump o fires p1 p2) = .next t) (ht : t.st ≠ .faulted) :
    ∃ c, s.resolve p1 = .ok c ∧
      (fires c = false → t.ip = s.ip + BitVec.ofNat 64 o.length) ∧
      (fires c = true → s.resolve p2 = .ok t.ip) := by
  obtain hok | ⟨k, -, rfl⟩ := State.settle_next.1 h
  · obtain ⟨c, hc, ⟨hf, target, htarget, rfl⟩ | ⟨hf, rfl⟩⟩ := State.jump_ok.1 hok
    · exact ⟨c, hc, by simp [hf], fun _ => htarget⟩
    · exact ⟨c, hc, fun _ => rfl, by simp [hf]⟩
  · exact absurd rfl ht

/-- Settles O18: a fault keeps `IP`, an instruction that is no jump goes past its words, and a jump
does what its condition says. -/
theorem ipLaw : Obligations.IpLaw := by
  unfold Obligations.IpLaw
  refine fun i s t hs h => ⟨(exec_evolves hs h).ipOfFault hs, fun ht => ?_⟩
  cases i with
  | add | multiply | lessThan | equals | input | output | halt =>
    exact exec_ip_of_not_jump (by simp [Instr.op]) h ht
  | jumpIfTrue p1 p2 =>
    obtain ⟨c, hc, hnext, htarget⟩ := State.settle_jump_ip h ht
    exact ⟨c, hc, fun h0 => hnext (firesOnTrue_eq_false.2 h0),
      fun h0 => htarget (firesOnTrue_iff.2 h0)⟩
  | jumpIfFalse p1 p2 =>
    obtain ⟨c, hc, hnext, htarget⟩ := State.settle_jump_ip h ht
    exact ⟨c, hc, fun h0 => hnext (firesOnFalse_eq_false.2 h0),
      fun h0 => htarget (firesOnFalse_iff.2 h0)⟩

/-! ### The ended machine (R78) -/

/-- Without or with fuel, the loop ends at once on a machine that has ended (R77). -/
theorem execute_of_not_active (hs : s.st ≠ .active) (fuel : Nat) :
    execute fuel s =
      some (if s.st = .halted then .success else .failure s.err s.ip, s) := by
  rw [execute.eq_def]
  cases h : s.st with
  | active => exact absurd h hs
  | halted => simp [h]
  | faulted => simp [h]

/-- Settles O13, from what the step and the loop do outside `ACTIVE`. -/
theorem endedMachineDoesNothing : Obligations.EndedMachineDoesNothing := by
  unfold Obligations.EndedMachineDoesNothing
  exact fun s hs => ⟨stepUnder_of_not_active hs, execute_of_not_active hs⟩

end Sys2Proof.Machine
end

section
/-! PROOFS. The family spec/41_arithmetic.md: overflow of Add and Multiply (R86). -/

namespace Sys2Proof.Machine

/-- A sum out of the word range is refused, `OVF` being `fault` (R86). -/
theorem sumWord_of_not_fits {x y : Word} (h : ¬ Fits (x.toInt + y.toInt)) :
    sumWord x y = .error .overflow := narrow_fault_of_not_fits h

/-- So is a product. -/
theorem productWord_of_not_fits {x y : Word} (h : ¬ Fits (x.toInt * y.toInt)) :
    productWord x y = .error .overflow := narrow_fault_of_not_fits h

/-- A computation that faults on the resolved operands is fault entry from the state the instruction
began in: the destination is neither checked nor written. -/
theorem State.settle_binary_of_compute_error {s : State} {o : Op}
    {f : Word → Word → Except FaultKind Word} {p1 p2 dst : Param} {x y : Word} {k : FaultKind}
    (hx : s.resolve p1 = .ok x) (hy : s.resolve p2 = .ok y) (hf : f x y = .error k) :
    s.settle (s.binary o f p1 p2 dst) = .next (s.raise k) :=
  State.settle_next.2 (.inr ⟨k, State.binary_error.2 (.inr ⟨x, hx, .inr ⟨y, hy, .inl hf⟩⟩), rfl⟩)

/-- Settles O35: `dst` is arbitrary, since the computation faults before the write. -/
theorem overflowFaults : Obligations.OverflowFaults := by
  unfold Obligations.OverflowFaults
  refine fun p1 p2 dst s x y hx hy => ⟨fun hsum => ?_, fun hproduct => ?_⟩
  · exact State.settle_binary_of_compute_error hx hy (sumWord_of_not_fits hsum)
  · exact State.settle_binary_of_compute_error hx hy (productWord_of_not_fits hproduct)

end Sys2Proof.Machine
end

section
/-! PROOFS. The family spec/42_input_output.md: the two ways an Input faults (R90, R91). -/

namespace Sys2Proof.Machine

variable {s : State} {dst : Param} {v : Word} {rest : List Word}

/-- An Input that finds `INQ` empty is fault entry, its destination unchecked (R91). -/
theorem exec_input_of_inq_nil (hq : s.inq = []) :
    exec (.input dst) s = .next (s.raise .inputExhausted) := by
  rw [exec, execInput, hq]

/-- On any other queue it settles the write from the state whose head is already removed (R89). -/
theorem exec_input_of_inq_cons (hq : s.inq = v :: rest) :
    exec (.input dst) s = (s.setInq rest).settle
      (((s.setInq rest).memWrite (writeAddr dst) v).map (State.advance .input)) := by
  rw [exec, execInput, hq]
  dsimp only
  cases (s.setInq rest).memWrite (writeAddr dst) v <;> rfl

/-- Settles O38: fault entry starts from the state with the head removed, which has the bounds of
`s`. -/
theorem inputBadDestination : Obligations.InputBadDestination := by
  unfold Obligations.InputBadDestination
  intro dst s v rest hq hbad
  have hwrite : (s.setInq rest).memWrite (writeAddr dst) v = .error .outOfBounds :=
    State.memWrite_of_not_inBounds (mt (State.inBounds_congr rfl).1 hbad)
  rw [exec_input_of_inq_cons hq, hwrite]
  rfl

/-- Settles O39: the queue is tested before the destination. -/
theorem inputEmpty : Obligations.InputEmpty := by
  unfold Obligations.InputEmpty
  exact fun _ _ => exec_input_of_inq_nil

end Sys2Proof.Machine
end

section
/-! PROOFS. The family spec/43_jumps.md: a jump that fires and its wild target (R95). -/

namespace Sys2Proof.Machine

variable {s : State}

/-- A jump that fires completes with its resolved target as `IP`, whatever word that is (R95). -/
theorem State.settle_jump_of_fires {o : Op} {fires : Word → Bool} {p1 p2 : Param}
    {c target : Word} (hc : s.resolve p1 = .ok c) (hf : fires c = true)
    (ht : s.resolve p2 = .ok target) :
    s.settle (s.jump o fires p1 p2) = .next (s.setIp target) :=
  State.settle_next.2 (.inl (State.jump_ok.2 ⟨c, hc, .inl ⟨hf, target, ht, rfl⟩⟩))

/-- With `IP` at no cell index, an active machine faults in the fetch and keeps that `IP`. -/
theorem step_setIp_of_not_inBounds {a : Word} (hs : s.st = .active) (ha : ¬ s.InBounds a) :
    step (s.setIp a) = .next ((s.setIp a).raise .outOfBounds) :=
  stepUnder_of_ip_not_inBounds hs (mt (State.inBounds_congr (State.setIp_len s a)).1 ha)

/-- Settles O43: the jump does not look at its target, which the next fetch then finds out of
bounds. -/
theorem wildTarget : Obligations.WildTarget := by
  unfold Obligations.WildTarget
  refine fun p1 p2 s c target hs hc ht hwild => ⟨fun h0 => ?_, fun h0 => ?_, ?_⟩
  · exact State.settle_jump_of_fires hc (firesOnTrue_iff.2 h0) ht
  · exact State.settle_jump_of_fires hc (firesOnFalse_iff.2 h0) ht
  · exact step_setIp_of_not_inBounds hs (State.not_inBounds_iff.2 hwild)

end Sys2Proof.Machine
end

section
/-! PROOFS. The family spec/44_compare.md: the word a comparison stores (R97 to R99). -/

namespace Sys2Proof.Machine

/-- The truth word of a proposition is 1 where it holds and 0 where it does not (R99). -/
theorem truthWord_decide (p : Prop) [Decidable p] :
    truthWord (decide p) = if p then 1 else 0 := by
  by_cases h : p
  · rw [decide_eq_true h, if_pos h, truthWord, if_pos rfl]
  · rw [decide_eq_false h, if_neg h, truthWord, if_neg Bool.false_ne_true]

/-- LessThan stores the truth of the signed strict order (R97). -/
theorem lessThanWord_eq (x y : Word) : lessThanWord x y = if x.toInt < y.toInt then 1 else 0 :=
  truthWord_decide (x.toInt < y.toInt)

/-- Equals stores the truth of equality of the whole words (R98). -/
theorem equalsWord_eq (x y : Word) : equalsWord x y = if x = y then 1 else 0 :=
  truthWord_decide (x = y)

/-- A computation that succeeds on the resolved operands completes when the destination is in
bounds: its word is stored there and `IP` goes past the instruction (R48, R80). -/
theorem State.settle_binary_of_compute_ok {s : State} {o : Op}
    {f : Word → Word → Except FaultKind Word} {p1 p2 dst : Param} {x y r : Word}
    (hx : s.resolve p1 = .ok x) (hy : s.resolve p2 = .ok y) (hf : f x y = .ok r)
    (hb : s.InBounds (writeAddr dst)) :
    s.settle (s.binary o f p1 p2 dst) =
      .next ((s.setMem (Memory.write s.mem (writeAddr dst).toNat r)).advance o) :=
  State.settle_next.2 (.inl (State.binary_ok.2 ⟨x, y, r, hx, hy, hf, hb, rfl⟩))

/-- Settles O34: both kinds are the shared routine with a computation that cannot fault, and both
are four words long. -/
theorem comparisonResults : Obligations.ComparisonResults := by
  unfold Obligations.ComparisonResults
  intro p1 p2 dst s x y hx hy hb
  rw [← lessThanWord_eq, ← equalsWord_eq]
  exact ⟨State.settle_binary_of_compute_ok hx hy rfl hb,
    State.settle_binary_of_compute_ok hx hy rfl hb⟩

end Sys2Proof.Machine
end

section
/-! PROOFS. The family spec/60_exceptions.md: the order of the fault tests (R111) and fault entry
(R113). -/

namespace Sys2Proof

variable {o : Op}

/-- No two kinds share a base opcode (R61). -/
theorem Op.base_injective : Function.Injective Op.base := fun _ _ h =>
  Option.some.inj ((Op.ofBase?_eq_some.2 rfl).symm.trans (Op.ofBase?_eq_some.2 h))

/-- Read parameters stand before the write parameter, so they are at most two (R61). -/
theorem Op.lt_two_of_roles_eq_read {j : Nat} (h : o.roles[j]? = some .read) : j < 2 := by
  by_contra hj
  obtain ⟨j, rfl⟩ := Nat.exists_eq_add_of_le' (Nat.not_lt.1 hj)
  cases o with
  | add | multiply | lessThan | equals => cases j <;> simp [Op.roles] at h
  | input | output | jumpIfTrue | jumpIfFalse | halt => simp [Op.roles] at h

end Sys2Proof

namespace Sys2Proof.Machine

variable {s t : State} {ops : OpSet} {o : Op} {k : FaultKind}

/-! ### The table as a list of tests -/

/-- The fault of the first test that is met. -/
def firstMet (tests : List (Bool × FaultKind)) : Option FaultKind :=
  (tests.find? fun c => c.1).map fun c => c.2

@[simp] theorem firstMet_nil : firstMet [] = none := rfl

@[simp] theorem firstMet_cons (b : Bool) (k : FaultKind) (tests : List (Bool × FaultKind)) :
    firstMet ((b, k) :: tests) = if b then some k else firstMet tests := by
  cases b <;> rfl

theorem firstMet_append (tests tests' : List (Bool × FaultKind)) :
    firstMet (tests ++ tests') = (firstMet tests).or (firstMet tests') := by
  simp only [firstMet, List.find?_append, Option.map_or]

/-- The five tests of R111 that belong to the decode phase. -/
def State.decodeTests (ops : OpSet) (s : State) (o : Op) : List (Bool × FaultKind) :=
  (s.faultTests ops o).take 5

/-- The five that belong to the execute phase; `OPSET` plays no part in them. -/
def State.executeTests (s : State) (o : Op) : List (Bool × FaultKind) :=
  (s.faultTests [] o).drop 5

theorem State.firstFault_of_kind (ho : o.base = baseOf (s.wordAt 0)) :
    s.firstFault ops = (firstMet (s.decodeTests ops o)).or (firstMet (s.executeTests o)) := by
  rw [← firstMet_append, State.firstFault, Op.ofBase?_eq_some.2 ho.symm]
  rfl

theorem State.firstFault_of_no_kind (ho : ∀ o : Op, o.base ≠ baseOf (s.wordAt 0)) :
    s.firstFault ops = firstMet s.noKindTests := by
  rw [State.firstFault, Op.ofBase?_eq_none.2 ho]
  rfl

/-! ### The decode phase: tests 1 to 5 -/

theorem State.memRead_ip (h : s.InBounds s.ip) : s.memRead s.ip = .ok (s.wordAt 0) := by
  rw [State.memRead_of_inBounds h, State.wordAt, BitVec.add_zero]

/-- Test 4: some read parameter's digit is reserved. -/
theorem State.reservedTest_iff :
    Op.reads o 1 = true ∧ 2 ≤ s.modeDigit 1 ∨ Op.reads o 2 = true ∧ 2 ≤ s.modeDigit 2 ↔
      ∃ j, o.roles[j]? = some .read ∧ 2 ≤ (s.wordAt 0).toNat / 10 ^ (j + 2) % 10 := by
  simp only [Op.reads, decide_eq_true_eq]
  constructor
  · rintro (h | h)
    · exact ⟨0, h⟩
    · exact ⟨1, h⟩
  · rintro ⟨j, hr, hd⟩
    match j, Op.lt_two_of_roles_eq_read hr with
    | 0, _ => exact .inl ⟨hr, hd⟩
    | 1, _ => exact .inr ⟨hr, hd⟩

/-- The tests of the decode phase, read as propositions. -/
theorem State.firstMet_decodeTests :
    firstMet (s.decodeTests ops o) =
      if ¬ s.InBounds s.ip then some .outOfBounds
      else if (s.wordAt 0).toInt < 0 then some .unknownOpcode
      else if o ∉ ops then some .unknownOpcode
      else if Op.reads o 1 = true ∧ 2 ≤ s.modeDigit 1 ∨ Op.reads o 2 = true ∧ 2 ≤ s.modeDigit 2 then
        some .reservedMode
      else if ∃ j < o.arity, ¬ s.InBounds (s.ip + 1 + BitVec.ofNat 64 j) then some .outOfBounds
      else none := by
  simp only [State.decodeTests, State.faultTests, List.take_succ_cons, List.take_zero, firstMet_cons,
    firstMet_nil, Bool.or_eq_true, Bool.and_eq_true, List.any_eq_true, List.mem_range,
    decide_eq_true_eq, add_ofNat_succ]

/-- Where the opcode word has a kind, the decode phase raises the first of its five tests. -/
theorem State.decodeAt_error_iff_firstMet (ho : o.base = baseOf (s.wordAt 0)) :
    s.decodeAt ops s.ip = .error k ↔ firstMet (s.decodeTests ops o) = some k := by
  rw [State.decodeAt_error, State.firstMet_decodeTests]
  by_cases hip : s.InBounds s.ip
  · rw [State.memRead_ip hip, if_neg (not_not.2 hip)]
    by_cases hneg : (s.wordAt 0).toInt < 0
    · simp [decodeHead_of_neg hneg, hneg]
    · rw [if_neg hneg]
      have h0 := Int.not_lt.1 hneg
      by_cases hin : o ∈ ops
      · rw [if_neg (not_not.2 hin)]
        by_cases hres : ∃ j, o.roles[j]? = some .read ∧ 2 ≤ (s.wordAt 0).toNat / 10 ^ (j + 2) % 10
        · rw [if_pos (State.reservedTest_iff.2 hres)]
          simp [decodeHead_of_reserved h0 hin ho hres]
        · rw [if_neg (mt State.reservedTest_iff.1 hres)]
          have hok := decodeHead_of_not_reserved h0 hin ho fun j hr =>
            Nat.not_le.1 fun hd => hres ⟨j, hr, hd⟩
          simp [hok, State.fetchOperands_error, eq_comm (a := k)]
      · have hu : ∀ o' ∈ ops, o'.base ≠ baseOf (s.wordAt 0) := fun o' ho' hb =>
          hin (Op.base_injective (hb.trans ho.symm) ▸ ho')
        simp [decodeHead_of_not_registered h0 hu, hin]
  · simp [State.memRead_of_not_inBounds hip, hip]

/-- Where it has none, the decode phase always faults. -/
theorem State.decodeAt_error_of_no_kind (ho : ∀ o : Op, o.base ≠ baseOf (s.wordAt 0)) :
    s.decodeAt ops s.ip = .error k ↔ firstMet s.noKindTests = some k := by
  have hd : decodeHead ops (s.wordAt 0) = .error .unknownOpcode := by
    by_cases hneg : (s.wordAt 0).toInt < 0
    · exact decodeHead_of_neg hneg
    · exact decodeHead_of_not_registered (Int.not_lt.1 hneg) fun o _ => ho o
  rw [State.decodeAt_error]
  by_cases hip : s.InBounds s.ip
  · simp [State.noKindTests, State.memRead_ip hip, hip, hd]
  · simp [State.noKindTests, State.memRead_of_not_inBounds hip, hip]

/-! ### The parameters of the decoded instruction -/

section Params

variable {i : Instr} {next : Word} {j : Nat} {p : Param}

/-- The word decoded at `IP` is the table's opcode word. -/
theorem State.decodeAt_ip_ok (h : s.decodeAt ops s.ip = .ok ⟨i, next⟩) :
    ∃ hd raws, decodeHead ops (s.wordAt 0) = .ok hd ∧
      s.fetchOperands (s.ip + 1) hd.op.arity = .ok (raws, next) ∧ hd.build raws = .ok i := by
  obtain ⟨w, hd, raws, hw, hh, hf, hb⟩ := State.decodeAt_ok.1 h
  obtain ⟨hip, -⟩ := State.memRead_ok.1 hw
  cases (State.memRead_ip hip).symm.trans hw
  exact ⟨hd, raws, hh, hf, hb⟩

/-- The decoded instruction has the kind of its opcode word. -/
theorem State.decodeAt_base (h : s.decodeAt ops s.ip = .ok ⟨i, next⟩) :
    i.op.base = baseOf (s.wordAt 0) := by
  obtain ⟨hd, raws, hh, -, hb⟩ := State.decodeAt_ip_ok h
  obtain ⟨hop, -⟩ := Head.build_ok.1 hb
  obtain ⟨-, hbase, -, -⟩ := decodeHead_ok.1 hh
  rw [hop, hbase]

/-- Its parameters have the modes of their roles and digits, and the words after the opcode word. -/
theorem State.decodeAt_param (h : s.decodeAt ops s.ip = .ok ⟨i, next⟩)
    (hp : i.params[j]? = some p) :
    ∃ r, i.op.roles[j]? = some r ∧ (r = .read → s.modeDigit (j + 1) < 2) ∧
      p = ⟨r.modeFor (s.modeDigit (j + 1)), s.wordAt (j + 1)⟩ := by
  obtain ⟨hd, raws, hh, hf, hb⟩ := State.decodeAt_ip_ok h
  obtain ⟨hop, hparams⟩ := Head.build_ok.1 hb
  obtain ⟨-, -, -, hm⟩ := decodeHead_ok.1 hh
  obtain ⟨hdig, hmodes⟩ := modesFrom_ok.1 hm
  rw [hparams, hmodes, List.getElem?_zipWith_eq_some] at hp
  obtain ⟨m, v, hm, hv, rfl⟩ := hp
  rw [List.getElem?_mapIdx, Option.map_eq_some_iff] at hm
  obtain ⟨r, hr, rfl⟩ := hm
  obtain ⟨-, -, hraws⟩ := State.fetchOperands_ok.1 hf
  have hread := hraws j v hv
  rw [← add_ofNat_succ] at hread
  obtain ⟨-, rfl⟩ := State.memRead_ok.1 hread
  rw [hop]
  refine ⟨r, hr, ?_, ?_⟩
  · rintro rfl
    rw [State.modeDigit, Nat.add_comm j 1]
    exact hdig j hr
  · rw [State.modeDigit, Nat.add_comm j 1]
    rfl

/-- What the table's terms make of read parameter `k`: its fault, or else its value. -/
def State.readOutcome (s : State) (o : Op) (k : Nat) : Except FaultKind Word :=
  if s.badRead o k then .error .outOfBounds else .ok (s.readValue k)

/-- Resolving a read parameter is what its test of the table says. -/
theorem State.resolve_param (h : s.decodeAt ops s.ip = .ok ⟨i, next⟩)
    (hp : i.params[j]? = some p) (hr : i.op.roles[j]? = some .read) :
    s.resolve p = s.readOutcome i.op (j + 1) := by
  obtain ⟨r, hr', hdig, rfl⟩ := State.decodeAt_param h hp
  unfold State.readOutcome
  cases hr.symm.trans hr'
  have hreads : Op.reads i.op (j + 1) = true := decide_eq_true hr
  obtain hd | hd : s.modeDigit (j + 1) = 0 ∨ s.modeDigit (j + 1) = 1 := by
    have := hdig rfl
    omega
  · by_cases hb : s.InBounds (s.wordAt (j + 1))
    · simp [State.badRead, State.readValue, State.resolve, Role.modeFor, hd, hb,
        State.memRead_of_inBounds]
    · simp [State.badRead, State.resolve, Role.modeFor, hd, hb, hreads,
        State.memRead_of_not_inBounds]
  · simp [State.badRead, State.readValue, State.resolve, Role.modeFor, hd]

/-- The address of a write parameter is the word that its test of the table checks. -/
theorem State.writeAddr_param (h : s.decodeAt ops s.ip = .ok ⟨i, next⟩)
    (hp : i.params[j]? = some p) : writeAddr p = s.wordAt (j + 1) := by
  obtain ⟨r, -, -, rfl⟩ := State.decodeAt_param h hp
  rfl

end Params

/-! ### The execute phase: tests 6 to 10 -/

/-- The tests that concern Add, Multiply, LessThan and Equals. -/
theorem State.firstMet_executeTests_binary (ho : o.roles = [.read, .read, .write]) :
    firstMet (s.executeTests o) = firstMet [(s.badRead o 1, .outOfBounds),
      (s.badRead o 2, .outOfBounds), (s.resultOverflows o, .overflow),
      (decide (¬ s.InBounds (s.wordAt 3)), .outOfBounds)] := by
  cases o with
  | add | multiply | lessThan | equals =>
    simp [State.executeTests, State.faultTests, Op.writes, Op.roles, Op.arity, List.range_succ,
      State.secondIsRead]
  | input | output | jumpIfTrue | jumpIfFalse | halt => cases ho

/-- The tests that concern the two jumps. -/
theorem State.firstMet_executeTests_jump (ho : o.roles = [.read, .read]) :
    firstMet (s.executeTests o) = firstMet [(s.badRead o 1, .outOfBounds),
      (s.badRead o 2 && s.secondIsRead o, .outOfBounds)] := by
  cases o with
  | jumpIfTrue | jumpIfFalse =>
    simp [State.executeTests, State.faultTests, Op.writes, Op.roles, Op.arity, List.range_succ,
      State.resultOverflows]
  | add | multiply | lessThan | equals | input | output | halt => cases ho

/-- The tests that concern Input. -/
theorem State.firstMet_executeTests_input :
    firstMet (s.executeTests .input) = firstMet [(decide (s.inq = []), .inputExhausted),
      (decide (¬ s.InBounds (s.wordAt 1)), .outOfBounds)] := by
  simp [State.executeTests, State.faultTests, State.badRead, Op.reads, Op.writes, Op.roles,
    Op.arity, State.resultOverflows]

/-- The test that concerns Output. -/
theorem State.firstMet_executeTests_output :
    firstMet (s.executeTests .output) = firstMet [(s.badRead .output 1, .outOfBounds)] := by
  simp [State.executeTests, State.faultTests, State.badRead, Op.reads, Op.writes, Op.roles,
    Op.arity, State.resultOverflows]

/-- No test concerns Halt. -/
theorem State.firstMet_executeTests_halt : firstMet (s.executeTests .halt) = none := by
  simp [State.executeTests, State.faultTests, State.badRead, Op.reads, Op.roles, Op.arity,
    State.resultOverflows]

/-! ### What each shape of routine raises -/

/-- `ERR` after a routine that itself leaves `ERR` at `None` is the fault it settled. -/
theorem State.settle_err {r : Except FaultKind State} (h : s.settle r = .next t)
    (hr : ∀ u, r = .ok u → u.err = none) : t.err = some k ↔ r = .error k := by
  obtain rfl | ⟨k', rfl, rfl⟩ := State.settle_next.1 h
  · simp [hr t rfl]
  · simp

/-- The overflow law of this hardware faults exactly when test 9 is met (R86). -/
theorem narrow_ovf_error {v : Int} :
    narrow Config.ovf v = .error k ↔ decide (¬ Fits v) = true ∧ k = .overflow := by
  rw [decide_eq_true_iff]
  constructor
  · intro h
    exact (narrow_error h).symm
  · rintro ⟨h, rfl⟩
    exact narrow_fault_of_not_fits h

/-- Add, Multiply, LessThan and Equals: the operands are resolved in order, then the result is
computed, and the destination comes last. -/
theorem State.binary_error_iff_firstMet {f : Word → Word → Except FaultKind Word}
    {p1 p2 dst : Param} (ho : o.roles = [.read, .read, .write])
    (h1 : s.resolve p1 = s.readOutcome o 1) (h2 : s.resolve p2 = s.readOutcome o 2)
    (hd : writeAddr dst = s.wordAt 3)
    (hf : ∀ k, f (s.readValue 1) (s.readValue 2) = .error k ↔
      s.resultOverflows o = true ∧ k = .overflow) :
    s.binary o f p1 p2 dst = .error k ↔ firstMet (s.executeTests o) = some k := by
  rw [State.firstMet_executeTests_binary ho, State.binary_error, h1, h2, hd]
  unfold State.readOutcome
  cases hb1 : s.badRead o 1 with
  | true => simp
  | false =>
    cases hb2 : s.badRead o 2 with
    | true => simp
    | false =>
      cases hr : f (s.readValue 1) (s.readValue 2) with
      | error e =>
        obtain ⟨hov, rfl⟩ := (hf e).1 hr
        simp [hr, hov]
      | ok r =>
        have hov : s.resultOverflows o ≠ true := fun hov => by
          cases hr.symm.trans ((hf .overflow).2 ⟨hov, rfl⟩)
        simp [hr, hov, eq_comm (a := k)]

/-- The two jumps: the target is resolved only where the jump fires. -/
theorem State.jump_error_iff_firstMet {fires : Word → Bool} {p1 p2 : Param}
    (ho : o.roles = [.read, .read])
    (h1 : s.resolve p1 = s.readOutcome o 1) (h2 : s.resolve p2 = s.readOutcome o 2)
    (hf : fires (s.readValue 1) = s.secondIsRead o) :
    s.jump o fires p1 p2 = .error k ↔ firstMet (s.executeTests o) = some k := by
  rw [State.firstMet_executeTests_jump ho, State.jump_error, h1, h2]
  unfold State.readOutcome
  cases hb1 : s.badRead o 1 with
  | true => simp
  | false => cases hb2 : s.badRead o 2 <;> simp [hf]

/-! ### What each decoded instruction raises -/

section Exec

variable {i : Instr} {next : Word} {p1 p2 dst : Param}

/-- A decoded instruction of the first shape leaves the first of its tests in `ERR`. -/
theorem exec_binary_err {f : Word → Word → Except FaultKind Word}
    (hir : s.decodeAt ops s.ip = .ok ⟨i, next⟩) (herr : s.err = none)
    (hp : i.params = [p1, p2, dst]) (ho : i.op.roles = [.read, .read, .write])
    (h : s.settle (s.binary i.op f p1 p2 dst) = .next t)
    (hf : ∀ k, f (s.readValue 1) (s.readValue 2) = .error k ↔
      s.resultOverflows i.op = true ∧ k = .overflow) :
    t.err = firstMet (s.executeTests i.op) := by
  have hok : ∀ u, s.binary i.op f p1 p2 dst = .ok u → u.err = none := fun u hu => by
    obtain ⟨x, y, r, -, -, -, -, rfl⟩ := State.binary_ok.1 hu
    exact herr
  have h1 := State.resolve_param (j := 0) (p := p1) hir (by simp [hp]) (by simp [ho])
  have h2 := State.resolve_param (j := 1) (p := p2) hir (by simp [hp]) (by simp [ho])
  have hd := State.writeAddr_param (j := 2) (p := dst) hir (by simp [hp])
  exact Option.ext fun k =>
    (State.settle_err h hok).trans (State.binary_error_iff_firstMet ho h1 h2 hd hf)

/-- So does a decoded jump. -/
theorem exec_jump_err {fires : Word → Bool}
    (hir : s.decodeAt ops s.ip = .ok ⟨i, next⟩) (herr : s.err = none)
    (hp : i.params = [p1, p2]) (ho : i.op.roles = [.read, .read])
    (h : s.settle (s.jump i.op fires p1 p2) = .next t)
    (hf : fires (s.readValue 1) = s.secondIsRead i.op) :
    t.err = firstMet (s.executeTests i.op) := by
  have hok : ∀ u, s.jump i.op fires p1 p2 = .ok u → u.err = none := fun u hu => by
    obtain ⟨c, -, ⟨-, target, -, rfl⟩ | ⟨-, rfl⟩⟩ := State.jump_ok.1 hu
    · exact herr
    · exact herr
  have h1 := State.resolve_param (j := 0) (p := p1) hir (by simp [hp]) (by simp [ho])
  have h2 := State.resolve_param (j := 1) (p := p2) hir (by simp [hp]) (by simp [ho])
  exact Option.ext fun k =>
    (State.settle_err h hok).trans (State.jump_error_iff_firstMet ho h1 h2 hf)

/-- Input: the queue is tested before the destination. -/
theorem exec_input_err (hir : s.decodeAt ops s.ip = .ok ⟨.input dst, next⟩) (herr : s.err = none)
    (h : exec (.input dst) s = .next t) : t.err = firstMet (s.executeTests .input) := by
  rw [State.firstMet_executeTests_input, ← State.writeAddr_param (j := 0) hir rfl]
  cases hq : s.inq with
  | nil =>
    cases (exec_input_of_inq_nil hq).symm.trans h
    simp
  | cons v rest =>
    by_cases hb : s.InBounds (writeAddr dst)
    · have hb' : (s.setInq rest).InBounds (writeAddr dst) := (State.inBounds_congr rfl).2 hb
      rw [exec_input_of_inq_cons hq, State.memWrite_of_inBounds hb'] at h
      cases h
      simp [herr, hb]
    · cases (inputBadDestination dst s v rest hq hb).symm.trans h
      simp [hb]

/-- Output: its only test is that of its operand. -/
theorem exec_output_err (hir : s.decodeAt ops s.ip = .ok ⟨.output p1, next⟩) (herr : s.err = none)
    (h : exec (.output p1) s = .next t) : t.err = firstMet (s.executeTests .output) := by
  have h1 : s.resolve p1 = s.readOutcome .output 1 := State.resolve_param (j := 0) hir rfl rfl
  rw [State.firstMet_executeTests_output]
  rw [exec, execOutput, h1, State.readOutcome] at h
  cases hb : s.badRead .output 1 with
  | true =>
    rw [hb] at h
    cases h
    rfl
  | false =>
    rw [hb] at h
    cases h
    exact herr

/-- The execute phase of a decoded instruction raises the first of the five tests of its kind. -/
theorem exec_err_of_decodeAt (hir : s.decodeAt ops s.ip = .ok ⟨i, next⟩) (herr : s.err = none)
    (h : exec i s = .next t) : t.err = firstMet (s.executeTests i.op) := by
  cases i with
  | add | multiply => exact exec_binary_err hir herr rfl rfl h fun _ => narrow_ovf_error
  | lessThan | equals =>
    exact exec_binary_err hir herr rfl rfl h fun _ => by simp [State.resultOverflows, Instr.op]
  | jumpIfTrue | jumpIfFalse => exact exec_jump_err hir herr rfl rfl h rfl
  | input => exact exec_input_err hir herr h
  | output => exact exec_output_err hir herr h
  | halt =>
    cases h
    exact herr.trans State.firstMet_executeTests_halt.symm

end Exec

/-! ### The two statements -/

/-- A step of an active machine puts the first fault of the table into `ERR`, if any (R111). -/
theorem stepUnder_err (hs : s.st = .active) (herr : s.err = none) (h : stepUnder ops s = .next t) :
    t.err = s.firstFault ops := by
  obtain ⟨hns, -⟩ | ⟨-, k, hk, he⟩ | ⟨-, ⟨i, next⟩, hir, he⟩ := stepUnder_cases ops s
  · exact absurd hs hns
  · cases he.symm.trans h
    by_cases ho : ∃ o : Op, o.base = baseOf (s.wordAt 0)
    · obtain ⟨o, ho⟩ := ho
      rw [State.firstFault_of_kind ho, (State.decodeAt_error_iff_firstMet ho).1 hk]
      rfl
    · have ho' := not_exists.1 ho
      rw [State.firstFault_of_no_kind ho', (State.decodeAt_error_of_no_kind ho').1 hk]
      rfl
  · have ho := State.decodeAt_base hir
    have hnone : firstMet (s.decodeTests ops i.op) = none :=
      Option.eq_none_iff_forall_ne_some.2 fun k hk => by
        cases hir.symm.trans ((State.decodeAt_error_iff_firstMet ho).2 hk)
    rw [State.firstFault_of_kind ho, hnone, Option.none_or]
    exact exec_err_of_decodeAt hir herr (he.symm.trans h)

/-- A step has a next state under every `OPSET` (R8, R33). -/
theorem exists_stepUnder_eq_next (ops : OpSet) (s : State) : ∃ t, stepUnder ops s = .next t := by
  obtain ⟨-, he⟩ | ⟨-, k, -, he⟩ | ⟨-, ir, -, he⟩ := stepUnder_cases ops s
  · exact ⟨s, he⟩
  · exact ⟨_, he⟩
  · obtain ⟨t, ht, -⟩ := exec_cases ir.instr s
    exact ⟨t, he.trans ht⟩

/-- Settles O16: the decode phase raises the first of the tests 1 to 5, the execute phase the first
of the tests 6 to 10, and `ERR` is not `None` exactly in `FAULTED`. -/
theorem faultPriority : Obligations.FaultPriority := by
  unfold Obligations.FaultPriority
  intro ops s hs herr
  obtain ⟨t, ht⟩ := exists_stepUnder_eq_next ops s
  have herr' := stepUnder_err hs herr ht
  have hfault := (stepUnder_evolves ht).errIffFault (by simp [hs, herr])
  exact ⟨t, ht, herr', by rw [← hfault, herr', Option.isSome_iff_ne_none]⟩

/-- What the execute phase can have done when it ends in `FAULTED`: fault entry alone, or fault entry
after Input took the head of `INQ`. -/
theorem exec_faulted {i : Instr} (hs : s.st = .active) (h : exec i s = .next t)
    (ht : t.st = .faulted) :
    (∃ k, t = s.raise k) ∨
      ∃ dst v rest, i = .input dst ∧ s.inq = v :: rest ∧ ¬ s.InBounds (writeAddr dst) ∧
        t = (s.setInq rest).raise .outOfBounds := by
  obtain ⟨u, hu, hcases⟩ := exec_cases i s
  cases hu.symm.trans h
  obtain hraise | hinput | ⟨dst, r, -, -, -, rfl⟩ | ⟨dst, v, rest, -, -, -, rfl⟩ |
    ⟨p1, v, -, -, rfl⟩ | ⟨-, ⟨target, rfl⟩ | rfl⟩ | ⟨-, rfl⟩ := hcases
  · exact .inl hraise
  · exact .inr hinput
  all_goals simp [hs] at ht

/-- Settles O17: every fault is fault entry from the state before the step, but for the head of `INQ`
that a failing Input has taken; the state is then an ended one. -/
theorem faultEntry : Obligations.FaultEntry := by
  unfold Obligations.FaultEntry
  intro ops s t hs h ht
  have hended : t.st ≠ .active := by simp [ht]
  have hexec : ∀ fuel, execute fuel t = some (.failure t.err t.ip, t) := fun fuel => by
    simp [execute_of_not_active hended, ht]
  have hstep : stepUnder ops t = .next t := stepUnder_of_not_active hended
  obtain ⟨hns, -⟩ | ⟨-, k, -, he⟩ | ⟨-, ⟨i, next⟩, hir, he⟩ := stepUnder_cases ops s
  · exact absurd hs hns
  · cases he.symm.trans h
    exact ⟨⟨k, rfl⟩, rfl, rfl, rfl, rfl, .inl rfl, hstep, hexec⟩
  · obtain ⟨k, rfl⟩ | ⟨dst, v, rest, rfl, hq, hbad, rfl⟩ := exec_faulted hs (he.symm.trans h) ht
    · exact ⟨⟨k, rfl⟩, rfl, rfl, rfl, rfl, .inl rfl, hstep, hexec⟩
    · exact ⟨⟨.outOfBounds, rfl⟩, rfl, rfl, rfl, rfl, .inr ⟨dst, next, v, hir, hq, hbad, rfl⟩,
        hstep, hexec⟩

end Sys2Proof.Machine
end

section
/-! PROOFS. The decoder against the encoder (spec/30_encoding.md R55 to R72). -/

namespace Sys2Proof

variable {ops : OpSet} {ws rest : List Word} {w : Word} {i : Instr} {p : Param} {j n b : Nat}

/-! ### The digits of an encoded opcode word (R56) -/

/-- The digits from parameter `n` on start at the weight of parameter `n`. -/
theorem pow_dvd_digitsFrom (n : Nat) (ps : List Param) : 10 ^ (n + 1) ∣ digitsFrom n ps := by
  induction ps generalizing n with
  | nil => exact dvd_zero _
  | cons p ps ih =>
    exact (dvd_mul_left _ _).add ((pow_dvd_pow 10 (n + 1).le_succ).trans (ih (n + 1)))

/-- The digit at the weight of a parameter is the digit of its mode, whatever stands below. -/
theorem digitsFrom_digit {ps : List Param} (hb : b < 10 ^ (n + 1)) (hp : ps[j]? = some p) :
    (b + digitsFrom n ps) / 10 ^ (n + j + 1) % 10 = p.mode.digit := by
  induction ps generalizing n b j with
  | nil => simp at hp
  | cons q qs ih =>
    have hq := Laws.Mode.digit_le q.mode
    have hpow : 10 ^ (n + 1 + 1) = 10 ^ (n + 1) * 10 := pow_succ 10 (n + 1)
    rw [digitsFrom, ← Nat.add_assoc]
    cases j with
    | zero =>
      cases hp
      obtain ⟨c, hc⟩ := pow_dvd_digitsFrom (n + 1) qs
      rw [hc, hpow, Nat.mul_comm (Mode.digit _), Nat.add_assoc, Nat.mul_assoc, ← Nat.mul_add,
        Nat.add_zero, Nat.add_mul_div_left _ _ (by positivity), Nat.div_eq_of_lt hb]
      omega
    | succ j =>
      rw [show n + (j + 1) + 1 = n + 1 + j + 1 by omega]
      have hb' : b + q.mode.digit * 10 ^ (n + 1) < 10 ^ (n + 1 + 1) := by
        rw [hpow]
        nlinarith
      exact ih hb' hp

theorem Instr.layout (i : Instr) : Laws.Layout.Statement i := by
  cases i with
  | add p1 p2 dst => exact Laws.Layout.add p1 p2 dst
  | multiply p1 p2 dst => exact Laws.Layout.multiply p1 p2 dst
  | input dst => exact Laws.Layout.input dst
  | output p1 => exact Laws.Layout.output p1
  | jumpIfTrue p1 p2 => exact Laws.Layout.jumpIfTrue p1 p2
  | jumpIfFalse p1 p2 => exact Laws.Layout.jumpIfFalse p1 p2
  | lessThan p1 p2 dst => exact Laws.Layout.lessThan p1 p2 dst
  | equals p1 p2 dst => exact Laws.Layout.equals p1 p2 dst
  | halt => exact Laws.Layout.halt

theorem Instr.opcodeWord_toInt_nonneg (i : Instr) : 0 ≤ i.opcodeWord.toInt := by
  obtain ⟨-, -, hlt⟩ := i.layout
  rw [BitVec.toInt_eq_toNat_of_lt (by omega)]
  omega

/-- The opcode word has the base opcode of its instruction (R61). -/
theorem Instr.baseOf_opcodeWord (i : Instr) : baseOf i.opcodeWord = i.op.base := by
  obtain ⟨-, hw, -⟩ := i.layout
  have := i.op.base_lt
  have hd : 100 ∣ digitsFrom 1 i.params := pow_dvd_digitsFrom 1 i.params
  rw [baseOf, hw]
  omega

/-- It has the mode digit of every parameter at that parameter's weight (R56). -/
theorem Instr.opcodeWord_digit (hp : i.params[j]? = some p) :
    i.opcodeWord.toNat / 10 ^ (j + 2) % 10 = p.mode.digit := by
  obtain ⟨-, hw, -⟩ := i.layout
  rw [hw, ← digitsFrom_digit (n := 1) i.op.base_lt hp, Nat.add_comm 1 j]

/-! ### The roles of an instruction's parameters (R58, R61) -/

/-- A parameter with the role `write` is the destination. -/
theorem Instr.dest?_of_roles_eq_write (hp : i.params[j]? = some p)
    (hr : i.op.roles[j]? = some .write) : i.dest? = some p := by
  cases i with
  | add p1 p2 dst | multiply p1 p2 dst | lessThan p1 p2 dst | equals p1 p2 dst =>
    match j, hr with
    | 2, _ => exact hp
  | input dst =>
    match j, hr with
    | 0, _ => exact hp
  | output | jumpIfTrue | jumpIfFalse | halt =>
    match j, hr with
    | 0, h | 1, h | j + 2, h => simp [Instr.op, Op.roles] at h

/-- The destination is a parameter with the role `write`. -/
theorem Instr.roles_eq_write_of_dest? (hd : i.dest? = some p) :
    ∃ j : Nat, i.params[j]? = some p ∧ i.op.roles[j]? = some .write := by
  cases i with
  | add | multiply | lessThan | equals => exact ⟨2, hd, rfl⟩
  | input => exact ⟨0, hd, rfl⟩
  | output | jumpIfTrue | jumpIfFalse | halt => cases hd

theorem Instr.destIsPosition_iff :
    i.destIsPosition = true ↔
      ∀ (j : Nat) (p : Param), i.params[j]? = some p → i.op.roles[j]? = some .write →
        p.mode = .position := by
  unfold Instr.destIsPosition
  constructor
  · intro h j p hp hr
    rw [Instr.dest?_of_roles_eq_write hp hr] at h
    exact of_decide_eq_true h
  · intro h
    cases hd : i.dest? with
    | none => rfl
    | some p =>
      obtain ⟨j, hp, hr⟩ := Instr.roles_eq_write_of_dest? hd
      exact decide_eq_true (h j p hp hr)

theorem Role.modeFor_read_digit (m : Mode) : Role.read.modeFor m.digit = m := by cases m <;> rfl

theorem Role.digit_modeFor {d : Nat} (hd : d < 2) : (Role.read.modeFor d).digit = d := by
  obtain rfl | rfl : d = 0 ∨ d = 1 := by omega
  · rfl
  · rfl

/-! ### Decoding what was encoded -/

/-- The opcode word of a well-formed instruction decodes to its kind and the modes of its
parameters: a read parameter's mode is its digit, and a write parameter is Position. -/
theorem decodeHead_opcodeWord (hi : i.WellFormed ops) :
    decodeHead ops i.opcodeWord = .ok ⟨i.op, i.params.map Param.mode⟩ := by
  obtain ⟨hreg, hdest⟩ := hi
  have hlen : i.params.length = i.op.roles.length := i.params_length
  have hparam : ∀ {k : Nat} {r : Role}, i.op.roles[k]? = some r → ∃ p, i.params[k]? = some p :=
    fun hr => ⟨_, List.getElem?_eq_getElem (hlen ▸ (List.getElem?_eq_some_iff.1 hr).1)⟩
  rw [decodeHead_of_not_reserved i.opcodeWord_toInt_nonneg (of_decide_eq_true hreg)
    i.baseOf_opcodeWord.symm]
  · refine congrArg _ (congrArg _ (List.ext_getElem? fun k => ?_))
    rw [List.getElem?_mapIdx, List.getElem?_map]
    cases hr : i.op.roles[k]? with
    | none =>
      rw [List.getElem?_eq_none (hlen ▸ List.getElem?_eq_none_iff.1 hr)]
      rfl
    | some r =>
      obtain ⟨p, hp⟩ := hparam hr
      rw [hp, Option.map_some, Option.map_some, Instr.opcodeWord_digit hp]
      cases r with
      | read => rw [Role.modeFor_read_digit]
      | write =>
        rw [Instr.destIsPosition_iff.1 hdest k p hp hr]
        rfl
  · intro k hr
    obtain ⟨p, hp⟩ := hparam hr
    rw [Instr.opcodeWord_digit hp]
    exact Nat.lt_succ_of_le (Laws.Mode.digit_le p.mode)

/-- Settles O1: the opcode word gives back kind and modes, and the words after it the raw words. -/
theorem decodeEncodeRoundTrip : Obligations.DecodeEncodeRoundTrip := by
  unfold Obligations.DecodeEncodeRoundTrip
  intro ops i rest hi
  have hlen : (i.params.map Param.raw).length = i.op.arity := by
    rw [List.length_map, i.params_length]
  refine decode_ok.2 ⟨_, _, _, rfl, decodeHead_opcodeWord hi, ?_, ?_⟩
  · dsimp only
    rw [List.append_eq, List.take_left' hlen]
    refine Head.build_ok.2 ⟨rfl, ?_⟩
    rw [List.zipWith_map, List.zipWith_self, List.map_id']
  · exact (List.drop_left' hlen).symm

/-! ### What a successful decoding says -/

/-- A decoded instruction has the operand words as raw words, in order. -/
theorem Head.build_raws {h : Head} {raws : List Word} (hm : raws.length ≤ h.modes.length)
    (hb : h.build raws = .ok i) : i.params.map Param.raw = raws := by
  obtain ⟨-, hparams⟩ := Head.build_ok.1 hb
  calc i.params.map Param.raw = (h.modes.zip raws).map Prod.snd := by
        rw [hparams, List.zip, List.map_zipWith, List.map_zipWith]
    _ = raws := List.map_snd_zip hm

/-- The words that decode are the opcode word, the raw words of the instruction and the rest. -/
theorem decode_ok_words (h : decode ops ws = .ok (i, rest)) :
    ∃ w hd, ws = w :: (i.params.map Param.raw ++ rest) ∧ decodeHead ops w = .ok hd ∧
      hd.build (i.params.map Param.raw) = .ok i := by
  obtain ⟨w, tail, hd, rfl, hh, hb, rfl⟩ := decode_ok.1 h
  have hraws := Head.build_raws (decodeHead_modes_length hh ▸ List.length_take_le _ _) hb
  exact ⟨w, hd, by rw [hraws, List.take_append_drop], hh, by rw [hraws, hb]⟩

/-- Settles O2, from what the opcode word and the words after it must be for the decoder to answer. -/
theorem decodeInversion : Obligations.DecodeInversion := by
  unfold Obligations.DecodeInversion
  intro ops ws rest i hdec
  obtain ⟨w, h, rfl, hh, hb⟩ := decode_ok_words hdec
  obtain ⟨hop, hparams⟩ := Head.build_ok.1 hb
  obtain ⟨hneg, hbase, hin, hm⟩ := decodeHead_ok.1 hh
  obtain ⟨hdig, hmodes⟩ := modesFrom_ok.1 hm
  have hmode : ∀ {j : Nat} {p : Param} {r : Role}, i.params[j]? = some p → i.op.roles[j]? = some r →
      p.mode = r.modeFor (w.toNat / 10 ^ (j + 2) % 10) := by
    intro j p r hp hr
    rw [hparams, List.getElem?_zipWith_eq_some] at hp
    obtain ⟨m, v, hm, -, rfl⟩ := hp
    rw [hmodes, List.getElem?_mapIdx, ← hop, hr] at hm
    cases hm
    rw [digit_one_add]
  refine ⟨⟨decide_eq_true (hop ▸ hin), Instr.destIsPosition_iff.2 fun j p hp hr => hmode hp hr⟩,
    w, rfl, Int.not_lt.1 hneg, hbase.trans (congrArg _ hop.symm), fun k p hp hr => ?_⟩
  have hlt := hdig k (hop ▸ hr)
  rw [digit_one_add] at hlt
  rw [hmode hp hr, Role.digit_modeFor hlt]

/-- Settles O5: each clause is one run of the decoder. -/
theorem writtenOutWords : Obligations.WrittenOutWords := by
  unfold Obligations.WrittenOutWords
  decide

end Sys2Proof
end

section
/-! PROOFS. The Decoder over memory (spec/30_encoding.md R71, spec/20_memory.md R51) and the faults of
the decode phase (spec/60_exceptions.md R103, R126). -/

namespace Sys2Proof.Machine

variable {ops : OpSet} {s t : State} {a v : Word} {i : Instr}

/-! ### Decoding depends on the instruction's words alone (R71) -/

/-- The Decoder answers the same in a memory that has the same words in the instruction's cells. -/
theorem State.decodeAt_congr {ir : Decoded} (h : s.decodeAt ops a = .ok ir)
    (hcells : ∀ j ≤ ir.instr.op.arity,
      t.memRead (a + BitVec.ofNat 64 j) = s.memRead (a + BitVec.ofNat 64 j)) :
    t.decodeAt ops a = .ok ir := by
  obtain ⟨w, hd, raws, hw, hh, hf, hb⟩ := State.decodeAt_ok.1 h
  obtain ⟨hop, -⟩ := Head.build_ok.1 hb
  obtain ⟨hlen, hlast, hraws⟩ := State.fetchOperands_ok.1 hf
  rw [hop] at hcells
  have hw' : t.memRead a = .ok w := by
    have h0 := hcells 0 (Nat.zero_le _)
    rw [BitVec.add_zero] at h0
    rw [h0, hw]
  have hf' : t.fetchOperands (a + 1) hd.op.arity = .ok (raws, ir.next) := by
    refine State.fetchOperands_ok.2 ⟨hlen, hlast, fun j v hj => ?_⟩
    have hlt : j < hd.op.arity := hlen ▸ (List.getElem?_eq_some_iff.1 hj).1
    rw [← hraws j v hj, ← add_ofNat_succ, hcells (j + 1) hlt]
  exact State.decodeAt_ok.2 ⟨w, hd, raws, hw', hh, hf', hb⟩

/-- Settles O6. -/
theorem decoderReadsOnlyItsWords : Obligations.DecoderReadsOnlyItsWords := by
  unfold Obligations.DecoderReadsOnlyItsWords
  exact fun _ _ _ _ _ h hcells => State.decodeAt_congr h hcells

/-! ### Words in memory that decode to an instruction are the one the step runs -/

/-- The words of a sequence that decodes, in consecutive cells, decode there to the same
instruction. -/
theorem State.decodeAt_of_decode {ws rest : List Word}
    (hws : ∀ j v, ws[j]? = some v → s.memRead (a + BitVec.ofNat 64 j) = .ok v)
    (hdec : decode ops ws = .ok (i, rest)) : ∃ next, s.decodeAt ops a = .ok ⟨i, next⟩ := by
  obtain ⟨w, h, rfl, hh, hb⟩ := decode_ok_words hdec
  obtain ⟨hop, -⟩ := Head.build_ok.1 hb
  have hw : s.memRead a = .ok w := by
    have h0 := hws 0 w rfl
    rwa [BitVec.add_zero] at h0
  have hf : s.fetchOperands (a + 1) h.op.arity =
      .ok (i.params.map Param.raw, a + 1 + BitVec.ofNat 64 h.op.arity) := by
    refine State.fetchOperands_ok.2 ⟨?_, rfl, fun j v hj => ?_⟩
    · rw [List.length_map, i.params_length, hop]
    · rw [← add_ofNat_succ]
      refine hws (j + 1) v ?_
      rw [List.getElem?_cons_succ,
        List.getElem?_append_left (List.getElem?_eq_some_iff.1 hj).1, hj]
  exact ⟨_, State.decodeAt_ok.2 ⟨w, h, _, hw, hh, hf, hb⟩⟩

/-- So an active machine at these words executes that instruction (R74). -/
theorem stepUnder_of_decode {ws rest : List Word} (hs : s.st = .active)
    (hws : ∀ j v, ws[j]? = some v → s.memRead (s.ip + BitVec.ofNat 64 j) = .ok v)
    (hdec : decode ops ws = .ok (i, rest)) : stepUnder ops s = exec i s := by
  obtain ⟨next, hir⟩ := State.decodeAt_of_decode hws hdec
  exact stepUnder_active_ok hs hir

/-- The opcode word and the operand words after it, as one sequence of cells. -/
theorem State.memRead_cons {w : Word} {raws : List Word} (hw : s.memRead a = .ok w)
    (hraws : ∀ j v, raws[j]? = some v → s.memRead (a + BitVec.ofNat 64 (j + 1)) = .ok v) :
    ∀ j v, (w :: raws)[j]? = some v → s.memRead (a + BitVec.ofNat 64 j) = .ok v
  | 0, _, rfl => by rwa [BitVec.add_zero]
  | j + 1, v, hj => hraws j v hj

/-- Settles O12. -/
theorem stepRunsDecodedInstruction : Obligations.StepRunsDecodedInstruction := by
  unfold Obligations.StepRunsDecodedInstruction
  exact fun _ _ _ _ hs hw hraws hdec => stepUnder_of_decode hs (State.memRead_cons hw hraws) hdec

/-- Settles O23: after the write, cell `a` reads as the word written, and the machine is as active
as before. -/
theorem storeSeenByFetch : Obligations.StoreSeenByFetch := by
  unfold Obligations.StoreSeenByFetch
  intro s t a v hs hwrite
  obtain ⟨hb, rfl⟩ := State.memWrite_ok.1 hwrite
  have hread : (s.setMem (Memory.write s.mem a.toNat v)).memRead a = .ok v := by
    rw [State.memRead_store hb, if_pos rfl]
  exact ⟨fun k hk => stepUnder_of_decodeHead_error hs hread hk,
    fun raws i hraws hdec => stepUnder_of_decode hs (State.memRead_cons hread hraws) hdec⟩

/-! ### Faults of the fetch (R103 causes 1 and 2) -/

/-- A decoded opcode word with an operand word out of bounds faults in the fetch of that word. -/
theorem stepUnder_of_truncated {w : Word} {h : Head} (hs : s.st = .active)
    (hw : s.memRead s.ip = .ok w) (hh : decodeHead ops w = .ok h)
    (hj : ∃ j < h.op.arity, ¬ s.InBounds (s.ip + BitVec.ofNat 64 (j + 1))) :
    stepUnder ops s = .next (s.raise .outOfBounds) := by
  simp only [add_ofNat_succ] at hj
  exact stepUnder_active_error hs (State.decodeAt_error.2
    (.inr ⟨w, hw, .inr ⟨h, hh, State.fetchOperands_error.2 ⟨hj, rfl⟩⟩⟩))

/-- Settles O21, one lemma for each of the two fetches. -/
theorem fetchFaults : Obligations.FetchFaults := by
  unfold Obligations.FetchFaults
  refine fun ops s hs => ⟨fun hip => ?_, fun w h hw hh hj => ?_⟩
  · exact stepUnder_of_ip_not_inBounds hs (State.not_inBounds_iff.2 hip)
  · obtain ⟨j, h1, hle, hbad⟩ := hj
    obtain ⟨j, rfl⟩ := Nat.exists_eq_add_of_le' h1
    exact stepUnder_of_truncated hs hw hh ⟨j, hle, hbad⟩

/-! ### A smaller `OPSET` (R8, R126) -/

theorem mem_opset (o : Op) : o ∈ Config.opset := by cases o <;> decide

/-- A registered opcode word decodes alike under every `OPSET` that has its kind. -/
theorem decodeHead_eq_of_mem {ops' : OpSet} {w : Word} {o : Op} (hw : 0 ≤ w.toInt)
    (hb : o.base = baseOf w) (ho : o ∈ ops) (ho' : o ∈ ops') :
    decodeHead ops w = decodeHead ops' w := by
  rw [decodeHead_of_registered hw ho hb, decodeHead_of_registered hw ho' hb]

/-- The step depends on `OPSET` only through the decoding of the opcode word. -/
theorem stepUnder_congr_of_decodeHead {ops' : OpSet} {w : Word} (hw : s.memRead s.ip = .ok w)
    (hh : decodeHead ops w = decodeHead ops' w) : stepUnder ops s = stepUnder ops' s := by
  simp only [stepUnder, State.decodeAt, hw, bind, Except.bind, hh]

/-- Settles O22. -/
theorem restrictedOpset : Obligations.RestrictedOpset := by
  unfold Obligations.RestrictedOpset
  refine fun ops s w o hs hw h0 hb => ⟨fun hout => ?_, fun hin => ?_⟩
  · have hnone : ∀ o' ∈ ops, o'.base ≠ baseOf w := fun o' ho' hb' =>
      hout (Op.base_injective (hb'.trans hb) ▸ ho')
    exact stepUnder_of_decodeHead_error hs hw (decodeHead_of_not_registered h0 hnone)
  · exact stepUnder_congr_of_decodeHead hw (decodeHead_eq_of_mem h0 hb.symm hin (mem_opset o))

/-! ### A placed instruction (log entry 2) -/

section Placed

variable {ws : List Word}

theorem State.placeWords_mem :
    (s.placeWords ws).mem = Memory.writeAll s.mem (s.placeWords ws).ip.toNat ws := rfl

theorem State.placeWords_len :
    (s.placeWords ws).len = max s.len ((s.placeWords ws).ip.toNat + ws.length) := rfl

/-- `IP` after placing leaves room for the words below the bound of R7. -/
theorem State.placeWords_ip (hws : ws.length ≤ Config.memDepth) :
    0 ≤ (s.placeWords ws).ip.toInt ∧
      (s.placeWords ws).ip.toInt + ws.length ≤ Config.memDepth := by
  simp only [State.placeWords]
  split
  · assumption
  · simpa using hws

/-- A number added to a word adds to its value, as long as the sum is a cell index (R7). -/
theorem toInt_add_ofNat {j : Nat} (h0 : 0 ≤ a.toInt) (hj : a.toInt + j ≤ Config.memDepth) :
    (a + BitVec.ofNat 64 j).toInt = a.toInt + j := by
  simp only [Config.memDepth] at hj
  rw [BitVec.toInt_add, toInt_ofNat_of_le_memDepth (by simp only [Config.memDepth]; omega)]
  exact Int.bmod_eq_of_le (by omega) (by omega)

/-- The placed words read back in order from `IP` on. -/
theorem State.memRead_placeWords (hws : ws.length ≤ Config.memDepth) {j : Nat}
    (hj : ws[j]? = some v) :
    (s.placeWords ws).memRead ((s.placeWords ws).ip + BitVec.ofNat 64 j) = .ok v := by
  obtain ⟨h0, hle⟩ := State.placeWords_ip (s := s) hws
  obtain ⟨hlt, rfl⟩ := List.getElem?_eq_some_iff.1 hj
  have hint := toInt_add_ofNat h0 (j := j) (by omega)
  have hip := toInt_eq_toNat h0
  have hlen := State.placeWords_len (s := s) (ws := ws)
  have hb : (s.placeWords ws).InBounds ((s.placeWords ws).ip + BitVec.ofNat 64 j) := by
    rw [State.inBounds_iff, hint]
    omega
  have hnat : ((s.placeWords ws).ip + BitVec.ofNat 64 j).toNat =
      (s.placeWords ws).ip.toNat + j := by
    have := toInt_eq_toNat hb.1
    omega
  rw [State.memRead_of_inBounds hb, hnat, State.placeWords_mem, Memory.read_writeAll,
    if_pos (by omega), Nat.add_sub_cancel_left, List.getD_eq_getElem _ _ hlt]

end Placed

theorem decodeTableWord_eq_some {nbits w : Nat} (h : decodeTableWord nbits w = some i) :
    ∃ rest, decode Config.opset (tableWords nbits w) = .ok (i, rest) := by
  unfold decodeTableWord at h
  split at h
  · next j rest hd =>
    cases h
    exact ⟨rest, hd⟩
  · cases h

/-- Settles O49: the placed words read back from `IP` on, and the machine is active. -/
theorem placedInstructionRuns : Obligations.PlacedInstructionRuns := by
  unfold Obligations.PlacedInstructionRuns
  intro s nbits w i h
  obtain ⟨rest, hdec⟩ := decodeTableWord_eq_some h
  have hlen : (tableWords nbits w).length ≤ Config.memDepth := by
    simp [tableWords, Config.memDepth]
  exact stepUnder_of_decode rfl (fun j v hj => State.memRead_placeWords hlen hj) hdec

end Sys2Proof.Machine
end

section
/-! PROOFS. The invariant of the state (spec/10_state.md R14, R15, R27), kept by every step and every
move of the host, and what a run keeps (R23, R115 to R117). -/

namespace Sys2Proof.Machine

variable {s t : State} {ops : OpSet}

/-! ### The canonical form (log entry 1) -/

/-- A canonical memory holds a pair exactly where the cell reads as its word and that is not 0. -/
theorem Memory.mem_iff_read {m : Memory} (h : Memory.wf m) {i : Nat} {v : Word} :
    (i, v) ∈ m ↔ Memory.read m i = v ∧ v ≠ 0 := by
  obtain ⟨hsorted, hne⟩ := h
  induction m with
  | nil =>
    rw [Memory.read_nil]
    exact ⟨fun h => absurd h List.not_mem_nil, fun h => absurd h.1.symm h.2⟩
  | cons c m ih =>
    obtain ⟨a, u⟩ := c
    obtain ⟨hlt, hsorted⟩ := List.pairwise_cons.1 hsorted
    have hu : u ≠ 0 := hne (a, u) List.mem_cons_self
    have ih := ih hsorted fun c hc => hne c (List.mem_cons_of_mem _ hc)
    rw [List.mem_cons, Prod.mk.injEq, Memory.read]
    by_cases hai : a = i
    · subst hai
      have hout : (a, v) ∉ m := fun hc => Nat.lt_irrefl a (hlt _ hc)
      rw [if_pos rfl]
      constructor
      · rintro (⟨-, rfl⟩ | hc)
        · exact ⟨rfl, hu⟩
        · exact absurd hc hout
      · rintro ⟨rfl, -⟩
        exact .inl ⟨rfl, rfl⟩
    · rw [if_neg hai, ← ih, or_iff_right fun hc => hai hc.1.symm]

/-- Canonical memories that read the same are the same list: they have the same pairs, and both
lists are in order. -/
theorem Memory.ext_read {m m' : Memory} (h : Memory.wf m) (h' : Memory.wf m')
    (hread : ∀ i, Memory.read m i = Memory.read m' i) : m = m' := by
  have hmem : ∀ c, c ∈ m ↔ c ∈ m' := fun ⟨i, v⟩ => by
    rw [Memory.mem_iff_read h, Memory.mem_iff_read h', hread]
  obtain ⟨hsorted, -⟩ := h
  obtain ⟨hsorted', -⟩ := h'
  have hne : ∀ {c d : Nat × Word}, c.1 < d.1 → c ≠ d := fun hlt e => by simp [e] at hlt
  have hperm : m.Perm m' := (List.perm_ext_iff_of_nodup (hsorted.imp hne) (hsorted'.imp hne)).2 hmem
  exact hperm.eq_of_pairwise (fun c d _ _ hcd hdc => absurd hcd hdc.asymm) hsorted hsorted'

/-- Within the invariant, cells from `LEN` on hold nothing. -/
theorem State.Inv.read_of_le (h : s.Inv) {i : Nat} (hi : s.len ≤ i) : Memory.read s.mem i = 0 :=
  Memory.read_eq_zero fun c hc => Nat.ne_of_lt (Nat.lt_of_lt_of_le (h.memInLen c hc) hi)

/-- Within the invariant, memory is what its cells below `LEN` read. -/
theorem State.Inv.mem_ext (hs : s.Inv) (ht : t.Inv) (hlen : s.len = t.len)
    (hread : ∀ i < s.len, Memory.read s.mem i = Memory.read t.mem i) : s.mem = t.mem := by
  refine Memory.ext_read hs.memCanonical ht.memCanonical fun i => ?_
  by_cases hi : i < s.len
  · exact hread i hi
  · have hi := Nat.not_lt.1 hi
    rw [hs.read_of_le hi, ht.read_of_le (hlen ▸ hi)]

/-- A cell below `LEN` is in bounds, `LEN` being at most `MEM_DEPTH` (R7, R15). -/
theorem State.Inv.memRead_ofNat (h : s.Inv) {i : Nat} (hi : i < s.len) :
    s.memRead (BitVec.ofNat 64 i) = .ok (Memory.read s.mem i) := by
  have hint := toInt_ofNat_of_le_memDepth (hi.le.trans h.lenInDepth)
  have hb : s.InBounds (BitVec.ofNat 64 i) := State.inBounds_iff.2 (by omega)
  have hnat := toInt_eq_toNat hb.1
  rw [State.memRead_of_inBounds hb, show (BitVec.ofNat 64 i).toNat = i by omega]

/-- Settles O11. -/
theorem canonicalMemory : Obligations.CanonicalMemory := by
  unfold Obligations.CanonicalMemory
  refine fun s t hs ht hlen hread => hs.mem_ext ht hlen fun i hi => ?_
  have hcell := hread (BitVec.ofNat 64 i)
  rw [hs.memRead_ofNat hi, ht.memRead_ofNat (hlen ▸ hi)] at hcell
  exact Except.ok.inj hcell

/-! ### Reset and construction (R31, R32) -/

/-- A loaded program of at most `MEM_DEPTH` words has the invariant. -/
theorem State.load_inv {program inputs : List Word} (h : program.length ≤ Config.memDepth) :
    (State.load program inputs).Inv where
  memCanonical := Memory.wf_ofWordsFrom program 0
  memInLen c hc := by
    obtain ⟨-, hlt, -⟩ := Memory.mem_ofWordsFrom hc
    rwa [Nat.zero_add] at hlt
  lenInDepth := h
  errIffFault := by simp [State.load]

/-- Settles O26: reset is the construction from the empty program. -/
theorem resetHasInv : Obligations.ResetHasInv := by
  unfold Obligations.ResetHasInv
  exact State.load_inv (program := []) (Nat.zero_le _)

/-- Settles O25: no cell is in bounds, there being none. -/
theorem resetState : Obligations.ResetState := by
  unfold Obligations.ResetState
  refine ⟨rfl, rfl, rfl, rfl, rfl, rfl, fun a => State.memRead_of_not_inBounds ?_⟩
  rw [State.not_inBounds_iff]
  exact lt_or_ge a.toInt 0

/-! ### The invariant along steps and moves -/

/-- What a step may do to memory: nothing, or one store into a cell in bounds (R39, R43). -/
def State.StoresOnce (s t : State) : Prop :=
  t.mem = s.mem ∨ ∃ a r, s.InBounds a ∧ t.mem = Memory.write s.mem a.toNat r

theorem exec_storesOnce {i : Instr} (h : exec i s = .next t) : s.StoresOnce t := by
  obtain ⟨u, hu, hcases⟩ := exec_cases i s
  cases hu.symm.trans h
  obtain ⟨k, rfl⟩ | ⟨dst, v, rest, -, -, -, rfl⟩ | ⟨dst, r, -, -, hb, rfl⟩ |
    ⟨dst, v, rest, -, -, hb, rfl⟩ | ⟨p1, v, -, -, rfl⟩ | ⟨-, ⟨target, rfl⟩ | rfl⟩ | ⟨-, rfl⟩ :=
    hcases
  · exact .inl rfl
  · exact .inl rfl
  · exact .inr ⟨_, r, hb, rfl⟩
  · exact .inr ⟨_, v, hb, rfl⟩
  · exact .inl rfl
  · exact .inl rfl
  · exact .inl rfl
  · exact .inl rfl

theorem stepUnder_storesOnce (h : stepUnder ops s = .next t) : s.StoresOnce t := by
  obtain ⟨-, he⟩ | ⟨-, k, -, he⟩ | ⟨-, ir, -, he⟩ := stepUnder_cases ops s
  · cases he.symm.trans h
    exact .inl rfl
  · cases he.symm.trans h
    exact .inl rfl
  · exact exec_storesOnce (he.symm.trans h)

/-- The invariant survives any change that stores into bounds and evolves the rest as R27 says. -/
theorem State.Inv.of_evolves (hs : s.Inv) (hmem : s.StoresOnce t) (hev : s.Evolves t) : t.Inv where
  memCanonical := by
    obtain h | ⟨a, r, -, h⟩ := hmem
    · exact h ▸ hs.memCanonical
    · exact h ▸ Memory.wf_write hs.memCanonical _ _
  memInLen c hc := by
    rw [hev.lenFixed]
    obtain h | ⟨a, r, hb, h⟩ := hmem
    · exact hs.memInLen c (h ▸ hc)
    · obtain rfl | hc := Memory.mem_write (h ▸ hc)
      · exact hb.toNat_lt
      · exact hs.memInLen c hc
  lenInDepth := hev.lenFixed ▸ hs.lenInDepth
  errIffFault := hev.errIffFault hs.errIffFault

/-- Settles O27: every step stores at most once, into bounds, and evolves the rest as R27 says. -/
theorem stepKeepsInv : Obligations.StepKeepsInv := by
  unfold Obligations.StepKeepsInv
  exact fun _ _ _ hs h => hs.of_evolves (stepUnder_storesOnce h) (stepUnder_evolves h)

theorem State.Inv.pushInput (hs : s.Inv) (v : Word) : (s.pushInput v).Inv := by
  by_cases hst : s.st = .active
  · rw [State.pushInput_of_active hst]
    exact ⟨hs.memCanonical, hs.memInLen, hs.lenInDepth, hs.errIffFault⟩
  · rwa [State.pushInput_of_not_active hst]

/-- A construction gives a state with the invariant, or it is refused and changes nothing. -/
theorem State.Inv.construct (hs : s.Inv) (program inputs : List Int) :
    (s.move (.construct program inputs)).Inv := by
  rw [State.move]
  cases h : State.construct Config.memDepth program inputs with
  | none => exact hs
  | some u =>
    obtain ⟨hl, ws, vs, rfl, -, rfl⟩ := State.construct_eq_some.1 h
    rw [List.length_map] at hl
    exact State.load_inv hl

/-- Every move of the host keeps the invariant. -/
theorem State.Inv.move (hs : s.Inv) (m : Move) : (s.move m).Inv := by
  cases m with
  | step => exact stepKeepsInv _ _ _ hs (step_eq_next_move s)
  | pushInput v => exact hs.pushInput v
  | construct program inputs => exact hs.construct program inputs

/-- Settles O28, by induction on the moves. -/
theorem movesKeepInv : Obligations.MovesKeepInv := by
  unfold Obligations.MovesKeepInv
  intro moves
  induction moves with
  | nil => exact fun _ hs => hs
  | cons m moves ih => exact fun s hs => ih (s.move m) (hs.move m)

/-! ### Runs without a construction (R23, R78, R115 to R117) -/

/-- The moves of a run: steps and input pushes. -/
def Move.IsRun (m : Move) : Prop := ∀ program inputs, m ≠ .construct program inputs

theorem Move.isRun_step : Move.step.IsRun := fun _ _ h => nomatch h

/-- A step or a push changes nothing once the machine has ended. -/
theorem State.move_of_not_active {m : Move} (hm : m.IsRun) (hs : s.st ≠ .active) :
    s.move m = s := by
  cases m with
  | step =>
    have h : step s = .next s := stepUnder_of_not_active hs
    rw [State.move, h]
  | pushInput v => exact State.pushInput_of_not_active hs v
  | construct program inputs => exact absurd rfl (hm program inputs)

/-- Settles O14, by induction on the moves. -/
theorem endedStatesAbsorbing : Obligations.EndedStatesAbsorbing := by
  unfold Obligations.EndedStatesAbsorbing
  intro moves
  induction moves with
  | nil => exact fun _ _ _ => rfl
  | cons m moves ih =>
    intro s hs hmoves
    obtain ⟨hm, hmoves⟩ := List.forall_mem_cons.1 hmoves
    rw [List.foldl_cons, State.move_of_not_active hm hs, ih s hs hmoves]

/-- A step or a push leaves `OUT` as a beginning of what it is then, and `LEN` fixed. -/
theorem State.move_out_len {m : Move} (hm : m.IsRun) :
    s.out <+: (s.move m).out ∧ (s.move m).len = s.len := by
  cases m with
  | step =>
    obtain ⟨-, hlen, hout, -, -⟩ := stepUnder_evolves (step_eq_next_move s)
    exact ⟨hout, hlen⟩
  | pushInput v =>
    rw [State.move]
    by_cases hs : s.st = .active
    · rw [State.pushInput_of_active hs]
      exact ⟨List.prefix_rfl, rfl⟩
    · rw [State.pushInput_of_not_active hs]
      exact ⟨List.prefix_rfl, rfl⟩
  | construct program inputs => exact absurd rfl (hm program inputs)

/-- Settles O30, by induction on the moves. -/
theorem outAppendOnly : Obligations.OutAppendOnly := by
  unfold Obligations.OutAppendOnly
  intro moves
  induction moves with
  | nil => exact fun _ _ => ⟨List.prefix_rfl, rfl⟩
  | cons m moves ih =>
    intro s hmoves
    obtain ⟨hm, hmoves⟩ := List.forall_mem_cons.1 hmoves
    obtain ⟨hout, hlen⟩ := State.move_out_len (s := s) hm
    obtain ⟨hout', hlen'⟩ := ih (s.move m) hmoves
    exact ⟨hout.trans hout', hlen'.trans hlen⟩

end Sys2Proof.Machine
end

section
/-! PROOFS. The outcomes of a step and of a run (spec/40_step_and_dispatch.md R73, R77,
spec/60_exceptions.md R111, R112). -/

namespace Sys2Proof.Machine

variable {s t : State} {ops : OpSet} {o : Op} {k : FaultKind}

/-! ### The three outcomes of a step (R73, R100) -/

/-- Halt is the one instruction that halts. -/
theorem exec_halted_iff {i : Instr} (hs : s.st = .active) (h : exec i s = .next t) :
    t.st = .halted ↔ i = .halt := by
  constructor
  · intro ht
    obtain ⟨u, hu, hcases⟩ := exec_cases i s
    cases hu.symm.trans h
    obtain ⟨k, rfl⟩ | ⟨dst, v, rest, -, -, -, rfl⟩ | ⟨dst, r, -, -, -, rfl⟩ |
      ⟨dst, v, rest, -, -, -, rfl⟩ | ⟨p1, v, -, -, rfl⟩ | ⟨-, ⟨target, rfl⟩ | rfl⟩ | ⟨hi, -⟩ :=
      hcases
    any_goals simp [hs] at ht
    exact hi
  · rintro rfl
    cases h
    rfl

/-- A step of an active machine halts exactly when the words at `IP` decode to Halt. -/
theorem stepUnder_halted_iff (hs : s.st = .active) (h : stepUnder ops s = .next t) :
    t.st = .halted ↔ ∃ next, s.decodeAt ops s.ip = .ok ⟨.halt, next⟩ := by
  obtain ⟨hns, -⟩ | ⟨-, k, hk, he⟩ | ⟨-, ⟨i, next⟩, hir, he⟩ := stepUnder_cases ops s
  · exact absurd hs hns
  · cases he.symm.trans h
    simp [hk]
  · rw [exec_halted_iff hs (he.symm.trans h), hir]
    simp

/-- Settles O15: `ERR` stays in line with `ST`, and Halt alone halts. -/
theorem stepOutcomes : Obligations.StepOutcomes := by
  unfold Obligations.StepOutcomes
  intro s hs herr
  have h := step_eq_next_move s
  have hfault := (stepUnder_evolves h).errIffFault (by simp [hs, herr])
  refine ⟨_, h, ?_, stepUnder_halted_iff hs h⟩
  cases hst : (s.move .step).st with
  | active => exact .inl ⟨rfl, by simpa [hst] using hfault⟩
  | halted => exact .inr (.inl ⟨rfl, by simpa [hst] using hfault⟩)
  | faulted => exact .inr (.inr ⟨rfl, Option.ne_none_iff_exists'.1 (hfault.2 hst)⟩)

/-! ### The rows of R112 -/

theorem Op.outOfBounds_mem_mayRaise (h : o ≠ .halt) : .outOfBounds ∈ Op.mayRaise o := by
  cases o with
  | halt => exact absurd rfl h
  | add | multiply | input | output | jumpIfTrue | jumpIfFalse | lessThan | equals => decide

theorem Op.reservedMode_mem_mayRaise {j : Nat} (h : Op.reads o j = true) :
    .reservedMode ∈ Op.mayRaise o := by
  have hmem : Role.read ∈ o.roles := List.mem_of_getElem? (of_decide_eq_true h)
  cases o with
  | input | halt => simp [Op.roles] at hmem
  | add | multiply | output | jumpIfTrue | jumpIfFalse | lessThan | equals => decide

theorem Op.overflow_mem_mayRaise (h : s.resultOverflows o = true) :
    .overflow ∈ Op.mayRaise o := by
  cases o with
  | add | multiply => decide
  | input | output | jumpIfTrue | jumpIfFalse | lessThan | equals | halt => cases h

/-- An instruction with a parameter is not Halt. -/
theorem Op.ne_halt_of_lt_arity {j : Nat} (h : j < o.arity) : o ≠ .halt := by
  rintro rfl
  exact absurd h (Nat.not_lt_zero j)

theorem Op.ne_halt_of_reads {j : Nat} (h : Op.reads o j = true) : o ≠ .halt :=
  Op.ne_halt_of_lt_arity (List.getElem?_eq_some_iff.1 (of_decide_eq_true h)).1

theorem State.reads_of_badRead {j : Nat} (h : s.badRead o j = true) : Op.reads o j = true := by
  simp only [State.badRead, Bool.and_eq_true] at h
  exact h.1.1

/-- Where the opcode word has a kind, all ten tests are those of that kind. -/
theorem State.firstFault_eq_firstMet (ho : o.base = baseOf (s.wordAt 0)) :
    s.firstFault ops = firstMet (s.faultTests ops o) := by
  rw [State.firstFault, Op.ofBase?_eq_some.2 ho.symm]
  rfl

/-- A fault raised first is one of the tests met. -/
theorem mem_of_firstMet {tests : List (Bool × FaultKind)} (h : firstMet tests = some k) :
    (true, k) ∈ tests := by
  obtain ⟨⟨b, k'⟩, hfind, rfl⟩ := Option.map_eq_some_iff.1 h
  obtain rfl : b = true := List.find?_some hfind
  exact List.mem_of_find?_eq_some hfind

/-- Past the fetch of a registered opcode word, the tests of the table that are met are in the row of
the instruction. -/
theorem State.mem_mayRaise_of_mem_faultTests (hip : s.InBounds s.ip) (h0 : 0 ≤ (s.wordAt 0).toInt)
    (h : (true, k) ∈ s.faultTests Config.opset o) : k ∈ Op.mayRaise o := by
  simp only [State.faultTests, List.mem_cons, List.not_mem_nil, or_false, Prod.mk.injEq,
    @eq_comm _ true, decide_eq_true_eq, Bool.or_eq_true, Bool.and_eq_true, List.any_eq_true,
    List.mem_range] at h
  obtain ⟨hbad, -⟩ | ⟨hneg, -⟩ | ⟨hout, -⟩ | ⟨hres, rfl⟩ | ⟨⟨j, hj, -⟩, rfl⟩ | ⟨⟨rfl, -⟩, rfl⟩ |
    ⟨hbad, rfl⟩ | ⟨⟨hbad, -⟩, rfl⟩ | ⟨hov, rfl⟩ | ⟨⟨j, hj, -⟩, rfl⟩ := h
  · exact absurd hip hbad
  · exact absurd h0 (Int.not_le.2 hneg)
  · exact absurd (mem_opset o) hout
  · obtain ⟨hr, -⟩ | ⟨hr, -⟩ := hres
    · exact Op.reservedMode_mem_mayRaise hr
    · exact Op.reservedMode_mem_mayRaise hr
  · exact Op.outOfBounds_mem_mayRaise (Op.ne_halt_of_lt_arity hj)
  · decide
  · exact Op.outOfBounds_mem_mayRaise (Op.ne_halt_of_reads (State.reads_of_badRead hbad))
  · exact Op.outOfBounds_mem_mayRaise (Op.ne_halt_of_reads (State.reads_of_badRead hbad))
  · exact Op.overflow_mem_mayRaise hov
  · exact Op.outOfBounds_mem_mayRaise (Op.ne_halt_of_lt_arity hj)

/-- A program whose first instruction, of kind `o`, raises `k`: cut off, with a reserved digit, or
with operands whose sum and product overflow; with no input, so that an Input finds none. -/
def faultingProgram (o : Op) : FaultKind → List Word
  | .outOfBounds => [BitVec.ofNat 64 o.base]
  | .reservedMode => [BitVec.ofNat 64 (200 + o.base)]
  | .overflow => [BitVec.ofNat 64 (1100 + o.base), 9223372036854775807, 2, 0]
  | .inputExhausted => [BitVec.ofNat 64 o.base, 0]
  | .unknownOpcode => []

/-- Every entry of the table of R112 is raised by its program. -/
theorem faultingProgram_raises : ∀ o ∈ Config.opset, ∀ k ∈ Op.mayRaise o,
    ((State.load (faultingProgram o k) []).memRead 0 = .ok ((faultingProgram o k).headD 0) ∧
      0 ≤ ((faultingProgram o k).headD 0).toInt ∧
      ((faultingProgram o k).headD 0).toNat % 100 = o.base) ∧
    ((State.load (faultingProgram o k) []).move .step).err = some k := by
  decide

/-- Settles O19: what a step raises is one of the tests of R111 that are met, and each entry of the
table has its program. -/
theorem faultTable : Obligations.FaultTable := by
  unfold Obligations.FaultTable
  refine ⟨fun s t w o k hs herr hw h0 hb h hk => ?_, fun o k hk => ?_⟩
  · obtain ⟨hip, -⟩ := State.memRead_ok.1 hw
    cases (State.memRead_ip hip).symm.trans hw
    refine State.mem_mayRaise_of_mem_faultTests hip h0 (mem_of_firstMet ?_)
    rw [← State.firstFault_eq_firstMet hb.symm, ← stepUnder_err hs herr h, hk]
  · obtain ⟨⟨hw, h0, hb⟩, hk⟩ := faultingProgram_raises o (mem_opset o) k hk
    exact ⟨_, _, _, rfl, rfl, hw, h0, hb, step_eq_next_move _, hk⟩

/-! ### Safe runs (R109, R111) -/

/-- A safe state with the invariant steps to a safe state exactly when it is no active state that
meets a test of R111. -/
theorem State.Inv.safe_step_iff (hi : s.Inv) (hsafe : s.Safe) :
    (s.move .step).Safe ↔ (s.st = .active → s.firstFault Config.opset = none) := by
  have h := step_eq_next_move s
  have herr : s.err = none := not_ne_iff.1 (mt hi.errIffFault.1 hsafe)
  by_cases hs : s.st = .active
  · obtain ⟨t, ht, -, hfault⟩ := faultPriority Config.opset s hs herr
    cases h.symm.trans ht
    rw [State.Safe, ne_eq, hfault, Option.not_isSome_iff_eq_none, forall_prop_of_true hs]
  · rw [State.move_of_not_active Move.isRun_step hs]
    simp only [hsafe, hs, false_imp_iff]

theorem State.safeFor_succ {n : Nat} :
    s.SafeFor (n + 1) ↔ s.Safe ∧ (s.move .step).SafeFor n := by
  unfold State.SafeFor
  constructor
  · exact fun h => ⟨h 0 (Nat.zero_le _), fun j hj => h (j + 1) (Nat.succ_le_succ hj)⟩
  · rintro ⟨h0, h⟩ (_ | j) hj
    · exact h0
    · exact h j (Nat.le_of_succ_le_succ hj)

/-- Settles O31, by induction on the number of steps. -/
theorem safeRunIffNoTestMet : Obligations.SafeRunIffNoTestMet := by
  unfold Obligations.SafeRunIffNoTestMet
  intro n
  induction n with
  | zero =>
    refine fun s hi hsafe => ⟨fun _ j hj => absurd hj (Nat.not_lt_zero j), fun _ j hj => ?_⟩
    obtain rfl := Nat.le_zero.1 hj
    exact hsafe
  | succ n ih =>
    intro s hi hsafe
    rw [State.safeFor_succ, and_iff_right hsafe, Nat.forall_lt_succ_left]
    have hstep := hi.safe_step_iff hsafe
    have hi' := hi.move .step
    constructor
    · intro h
      have hsafe' : (s.move .step).Safe := h 0 (Nat.zero_le _)
      exact ⟨hstep.1 hsafe', (ih _ hi' hsafe').1 h⟩
    · rintro ⟨h0, h⟩
      exact (ih _ hi' (hstep.2 h0)).2 h

/-! ### The loop (R36, R77) -/

/-- What `execute` returns for a state that has left `ACTIVE`. -/
def State.result (s : State) : ExecuteResult :=
  if s.st = .halted then .success else .failure s.err s.ip

/-- An ended machine stays where it is. -/
theorem stepN_of_not_active (hs : s.st ≠ .active) (n : Nat) : stepN n s = s := by
  induction n with
  | zero => rfl
  | succ n ih =>
    rw [stepN_succ, State.move_of_not_active Move.isRun_step hs, ih]

/-- With fuel for the steps to an ended state, the loop returns that state and its result. -/
theorem execute_of_ended {n fuel : Nat} (hn : n ≤ fuel) (h : (stepN n s).st ≠ .active) :
    execute fuel s = some ((stepN n s).result, stepN n s) := by
  induction fuel generalizing n s with
  | zero =>
    obtain rfl := Nat.le_zero.1 hn
    exact execute_of_not_active h 0
  | succ fuel ih =>
    by_cases hs : s.st = .active
    · cases n with
      | zero => exact absurd hs h
      | succ n =>
        rw [execute_succ_of_active hs, stepN_succ]
        exact ih (Nat.le_of_succ_le_succ hn) h
    · rw [stepN_of_not_active hs]
      exact execute_of_not_active hs _

/-- What the loop returns is reached by steps of active states, within the fuel. -/
theorem exists_stepN_of_execute {s t : State} {fuel : Nat} {r : ExecuteResult}
    (h : execute fuel s = some (r, t)) :
    ∃ n ≤ fuel, stepN n s = t ∧ t.st ≠ .active ∧ ∀ j < n, (stepN j s).st = .active := by
  by_cases hs : s.st = .active
  · cases fuel with
    | zero => cases (execute_zero_of_active hs).symm.trans h
    | succ fuel =>
      rw [execute_succ_of_active hs] at h
      obtain ⟨n, hn, ht, hended, hactive⟩ := exists_stepN_of_execute h
      exact ⟨n + 1, Nat.succ_le_succ hn, ht, hended, Nat.forall_lt_succ_left.2 ⟨hs, hactive⟩⟩
  · cases (execute_of_not_active hs fuel).symm.trans h
    exact ⟨0, Nat.zero_le _, rfl, hs, fun j hj => absurd hj (Nat.not_lt_zero j)⟩

/-- Settles O53: the loop stops at the first ended state, and with fuel to reach one it returns. -/
theorem executeRule : Obligations.ExecuteRule := by
  unfold Obligations.ExecuteRule
  refine fun fuel s => ⟨fun t r h => ?_, fun n hn hended => ⟨_, execute_of_ended hn hended⟩⟩
  obtain ⟨n, hn, rfl, hended, hactive⟩ := exists_stepN_of_execute h
  cases (execute_of_ended hn hended).symm.trans h
  exact ⟨hended, fun ht => if_pos ht, fun ht => if_neg (by simp [ht]), ⟨n, hn, rfl, hactive⟩,
    fun more => execute_of_ended (Nat.le_add_right_of_le hn) hended⟩

end Sys2Proof.Machine
end

section
/-! PROOFS. The results of the instructions that complete (spec/41_arithmetic.md to
spec/45_halt.md). -/

namespace Sys2Proof.Machine

variable {s : State} {v x r : Word} {p1 p2 : Param} {k : FaultKind}

/-! ### Results of Add and Multiply (R85 to R88) -/

/-- The value of a word is stored as that word. -/
theorem narrow_toInt {p : OverflowPolicy} {n : Int} (h : r.toInt = n) : narrow p n = .ok r := by
  rw [← h, narrow_of_fits (fits_toInt r), BitVec.ofInt_toInt]

/-- Settles O32. -/
theorem addResult : Obligations.AddResult := by
  unfold Obligations.AddResult
  exact fun p1 p2 dst s x y hx hy hfit hb => ⟨_, toInt_ofInt_of_fits hfit,
    State.settle_binary_of_compute_ok hx hy (narrow_of_fits hfit) hb⟩

/-- Settles O33. -/
theorem multiplyResult : Obligations.MultiplyResult := by
  unfold Obligations.MultiplyResult
  exact fun p1 p2 dst s x y hx hy hfit hb => ⟨_, toInt_ofInt_of_fits hfit,
    State.settle_binary_of_compute_ok hx hy (narrow_of_fits hfit) hb⟩

/-- The routine of a commutative operation does not depend on the order of its operands: if both
are bad, either order raises `OutOfBounds`. -/
theorem State.binary_comm {f : Word → Word → Except FaultKind Word} (hf : ∀ x y, f x y = f y x)
    (o : Op) (p1 p2 dst : Param) (s : State) :
    s.binary o f p1 p2 dst = s.binary o f p2 p1 dst := by
  unfold State.binary
  cases h1 : s.resolve p1 with
  | ok x =>
    cases h2 : s.resolve p2 with
    | ok y => simp only [bind, Except.bind, hf x y]
    | error k => rfl
  | error k =>
    cases h2 : s.resolve p2 with
    | ok y => rfl
    | error k' =>
      obtain ⟨-, -, rfl⟩ := State.resolve_error.1 h1
      obtain ⟨-, -, rfl⟩ := State.resolve_error.1 h2
      rfl

theorem sumWord_comm (x y : Word) : sumWord x y = sumWord y x := by
  rw [sumWord, sumWord, Int.add_comm]

theorem productWord_comm (x y : Word) : productWord x y = productWord y x := by
  rw [productWord, productWord, Int.mul_comm]

theorem sumWord_zero (x : Word) : sumWord x 0 = .ok x := narrow_toInt (by simp)

theorem productWord_zero (x : Word) : productWord x 0 = .ok 0 := narrow_toInt (by simp)

theorem productWord_one (x : Word) : productWord x 1 = .ok x := narrow_toInt (by simp)

theorem productWord_neg_one (hx : x.toInt ≠ wmin) : productWord x (-1) = .ok (-x) := by
  obtain ⟨hmin, hmax⟩ := fits_toInt x
  simp only [wmin, wmax] at hx hmin hmax
  refine narrow_toInt ?_
  rw [BitVec.toInt_neg, Int.bmod_eq_of_le (by omega) (by omega)]
  exact (Int.mul_neg_one _).symm

/-- `-WMIN` is `WMAX + 1`. -/
theorem productWord_wmin_neg_one (hx : x.toInt = wmin) : productWord x (-1) = .error .overflow := by
  refine productWord_of_not_fits ?_
  rw [hx]
  decide

/-- Settles O36: the laws of the two computations, the operands being Immediate. -/
theorem arithmeticLaws : Obligations.ArithmeticLaws := by
  unfold Obligations.ArithmeticLaws
  refine ⟨fun p1 p2 dst s => ⟨?_, ?_⟩, fun x dst s hb => ?_⟩
  · exact congrArg s.settle (State.binary_comm sumWord_comm .add p1 p2 dst s)
  · exact congrArg s.settle (State.binary_comm productWord_comm .multiply p1 p2 dst s)
  · refine ⟨?_, ?_, ?_, fun hx => ?_, fun hx => ?_, fun y hx hy => ?_⟩
    · exact State.settle_binary_of_compute_ok rfl rfl (sumWord_zero x) hb
    · exact State.settle_binary_of_compute_ok rfl rfl (productWord_zero x) hb
    · exact State.settle_binary_of_compute_ok rfl rfl (productWord_one x) hb
    · exact State.settle_binary_of_compute_ok rfl rfl (productWord_neg_one hx) hb
    · exact State.settle_binary_of_compute_error rfl rfl (productWord_wmin_neg_one hx)
    · obtain ⟨hxmin, -⟩ := fits_toInt x
      obtain ⟨-, hymax⟩ := fits_toInt y
      exact addResult _ _ dst s x y rfl rfl ⟨by omega, by omega⟩ hb

/-! ### Results of the other instructions (R89, R92 to R94, R100) -/

/-- Settles O37: the write from the state with the head removed has the bounds of `s`. -/
theorem inputResult : Obligations.InputResult := by
  unfold Obligations.InputResult
  intro dst s v rest hq hb
  have hwrite := State.memWrite_of_inBounds (v := v)
    ((State.inBounds_congr (State.setInq_len s rest)).2 hb)
  rw [exec_input_of_inq_cons hq, hwrite]
  rfl

theorem exec_output_of_ok (hv : s.resolve p1 = .ok v) :
    exec (.output p1) s = .next ((s.emit v).advance .output) := by
  rw [exec, execOutput, hv]
  rfl

theorem exec_output_of_error (hk : s.resolve p1 = .error k) :
    exec (.output p1) s = .next (s.raise k) := by
  rw [exec, execOutput, hk]
  rfl

/-- Settles O40. -/
theorem outputResult : Obligations.OutputResult := by
  unfold Obligations.OutputResult
  exact fun _ _ _ hv => exec_output_of_ok hv

/-- A jump that does not fire goes on past its words, whatever its target. -/
theorem State.settle_jump_of_not_fires {o : Op} {fires : Word → Bool} {c : Word}
    (hc : s.resolve p1 = .ok c) (hf : fires c = false) :
    s.settle (s.jump o fires p1 p2) = .next (s.advance o) :=
  State.settle_next.2 (.inl (State.jump_ok.2 ⟨c, hc, .inr ⟨hf, rfl⟩⟩))

/-- Settles O41. -/
theorem jumpIfTrueResult : Obligations.JumpIfTrueResult := by
  unfold Obligations.JumpIfTrueResult
  refine fun p1 p2 s => ⟨fun hc => ?_, fun c target hc h0 ht => ?_⟩
  · exact State.settle_jump_of_not_fires hc (firesOnTrue_eq_false.2 rfl)
  · exact State.settle_jump_of_fires hc (firesOnTrue_iff.2 h0) ht

/-- Settles O42. -/
theorem jumpIfFalseResult : Obligations.JumpIfFalseResult := by
  unfold Obligations.JumpIfFalseResult
  refine fun p1 p2 s => ⟨fun c hc h0 => ?_, fun target hc ht => ?_⟩
  · exact State.settle_jump_of_not_fires hc (firesOnFalse_eq_false.2 h0)
  · exact State.settle_jump_of_fires hc (firesOnFalse_iff.2 rfl) ht

/-- Settles O44: Halt has no operand and no way to fault. -/
theorem haltResult : Obligations.HaltResult := by
  unfold Obligations.HaltResult
  exact fun _ => rfl

end Sys2Proof.Machine
end

section
/-! PROOFS. Bad addresses in the execute phase (spec/60_exceptions.md R103 causes 3 and 4) and what
each instruction leaves unchanged (spec/20_memory.md R43). -/

namespace Sys2Proof.Machine

variable {s t : State} {a v x y r : Word} {p1 p2 dst : Param} {i : Instr} {k : FaultKind}

/-! ### Bad addresses -/

section BadAddress

variable {o : Op} {f : Word → Word → Except FaultKind Word} {fires : Word → Bool}

theorem State.settle_binary_of_error (h : s.binary o f p1 p2 dst = .error k) :
    s.settle (s.binary o f p1 p2 dst) = .next (s.raise k) :=
  State.settle_next.2 (.inr ⟨k, h, rfl⟩)

theorem State.settle_binary_of_first_error (h : s.resolve p1 = .error k) :
    s.settle (s.binary o f p1 p2 dst) = .next (s.raise k) :=
  State.settle_binary_of_error (State.binary_error.2 (.inl h))

theorem State.settle_binary_of_second_error (hx : s.resolve p1 = .ok x)
    (h : s.resolve p2 = .error k) :
    s.settle (s.binary o f p1 p2 dst) = .next (s.raise k) :=
  State.settle_binary_of_error (State.binary_error.2 (.inr ⟨x, hx, .inl h⟩))

theorem State.settle_binary_of_bad_destination (hx : s.resolve p1 = .ok x)
    (hy : s.resolve p2 = .ok y) (hr : f x y = .ok r) (hb : ¬ s.InBounds (writeAddr dst)) :
    s.settle (s.binary o f p1 p2 dst) = .next (s.raise .outOfBounds) :=
  State.settle_binary_of_error
    (State.binary_error.2 (.inr ⟨x, hx, .inr ⟨y, hy, .inr ⟨r, hr, hb, rfl⟩⟩⟩))

theorem State.settle_jump_of_condition_error (h : s.resolve p1 = .error k) :
    s.settle (s.jump o fires p1 p2) = .next (s.raise k) :=
  State.settle_next.2 (.inr ⟨k, State.jump_error.2 (.inl h), rfl⟩)

theorem State.settle_jump_of_target_error (hc : s.resolve p1 = .ok x) (hf : fires x = true)
    (h : s.resolve p2 = .error k) : s.settle (s.jump o fires p1 p2) = .next (s.raise k) :=
  State.settle_next.2 (.inr ⟨k, State.jump_error.2 (.inr ⟨x, hc, hf, h⟩), rfl⟩)

end BadAddress

/-- Settles O45, one lemma for each place of a routine that can meet a bad address. -/
theorem badAddressFaults : Obligations.BadAddressFaults := by
  unfold Obligations.BadAddressFaults
  simp only [List.forall_mem_cons, List.not_mem_nil, false_imp_iff, implies_true, and_true]
  refine fun p1 p2 dst s => ⟨fun hm hbad => ?_, fun x hx hm hbad => ?_, fun x y hx hy hbad => ?_⟩
  · have h : s.resolve p1 = .error .outOfBounds := State.resolve_error.2 ⟨hm, hbad, rfl⟩
    have hbinary {o f} : s.settle (s.binary o f p1 p2 dst) = .next (s.raise .outOfBounds) :=
      State.settle_binary_of_first_error h
    exact ⟨hbinary, hbinary, hbinary, hbinary, exec_output_of_error h,
      State.settle_jump_of_condition_error h, State.settle_jump_of_condition_error h⟩
  · have h : s.resolve p2 = .error .outOfBounds := State.resolve_error.2 ⟨hm, hbad, rfl⟩
    have hbinary {o f} : s.settle (s.binary o f p1 p2 dst) = .next (s.raise .outOfBounds) :=
      State.settle_binary_of_second_error hx h
    exact ⟨⟨hbinary, hbinary, hbinary, hbinary⟩,
      fun h0 => State.settle_jump_of_target_error hx (firesOnTrue_iff.2 h0) h,
      fun h0 => State.settle_jump_of_target_error hx (firesOnFalse_iff.2 h0) h⟩
  · exact ⟨fun hfit => State.settle_binary_of_bad_destination hx hy (narrow_of_fits hfit) hbad,
      fun hfit => State.settle_binary_of_bad_destination hx hy (narrow_of_fits hfit) hbad,
      State.settle_binary_of_bad_destination hx hy rfl hbad,
      State.settle_binary_of_bad_destination hx hy rfl hbad⟩

/-! ### Frames (R43, R113) -/

/-- A store changes what a read sees in its own cell only. -/
theorem State.memRead_store_of_ne (hb : s.InBounds a) (hne : v ≠ a) :
    (s.setMem (Memory.write s.mem a.toNat r)).memRead v = s.memRead v := by
  rw [State.memRead_store hb, if_neg hne]

theorem Instr.dest?_of_jump (h : i.op = .jumpIfTrue ∨ i.op = .jumpIfFalse) : i.dest? = none := by
  cases i with
  | jumpIfTrue | jumpIfFalse => rfl
  | add | multiply | input | output | lessThan | equals | halt => simp [Instr.op] at h

/-- Settles O46: of the effects of an instruction with a destination, all but a store to it leave
memory alone. -/
theorem storingFrame : Obligations.StoringFrame := by
  unfold Obligations.StoringFrame
  intro p1 p2 dst i s t hi h
  have hdst : i.dest? = some dst := by
    simp only [List.mem_cons, List.not_mem_nil, or_false] at hi
    obtain rfl | rfl | rfl | rfl | rfl := hi <;> rfl
  obtain ⟨u, hu, hcases⟩ := exec_cases i s
  cases hu.symm.trans h
  obtain ⟨k, rfl⟩ | ⟨d, v, rest, rfl, hq, -, rfl⟩ | ⟨d, r, hd, -, hb, rfl⟩ |
    ⟨d, v, rest, rfl, hq, hb, rfl⟩ | ⟨q, v, rfl, -, rfl⟩ | ⟨hjump, -⟩ | ⟨rfl, -⟩ := hcases
  · exact ⟨fun _ _ => rfl, rfl, rfl, .inl rfl, .inr ⟨rfl, ⟨k, rfl⟩, rfl⟩⟩
  · cases hdst
    exact ⟨fun _ _ => rfl, rfl, rfl, .inr ⟨rfl, v, hq⟩, .inr ⟨rfl, ⟨_, rfl⟩, rfl⟩⟩
  · cases hd.symm.trans hdst
    exact ⟨fun _ hne => State.memRead_store_of_ne hb hne, rfl, rfl, .inl rfl, .inl ⟨rfl, rfl⟩⟩
  · cases hdst
    exact ⟨fun _ hne => State.memRead_store_of_ne hb hne, rfl, rfl, .inr ⟨rfl, v, hq⟩,
      .inl ⟨rfl, rfl⟩⟩
  · cases hdst
  · cases (Instr.dest?_of_jump hjump).symm.trans hdst
  · cases hdst

/-- Halt does not fault. -/
theorem exec_halt_ne_raise : exec .halt s ≠ .next (s.raise k) := fun h => by
  injection h with h
  exact nomatch (congrArg State.st h : RunState.halted = .faulted)

/-- Settles O47: an instruction without a destination has no store among its effects. -/
theorem nonStoringFrame : Obligations.NonStoringFrame := by
  unfold Obligations.NonStoringFrame
  intro p1 p2 i s t hi h
  simp only [List.mem_cons, List.not_mem_nil, or_false] at hi
  have hdst : i.dest? = none := by obtain rfl | rfl | rfl | rfl := hi <;> rfl
  obtain ⟨u, hu, hcases⟩ := exec_cases i s
  cases hu.symm.trans h
  obtain ⟨k, rfl⟩ | ⟨d, v, rest, rfl, -, -, rfl⟩ | ⟨d, r, hd, -, -, rfl⟩ |
    ⟨d, v, rest, rfl, -, -, rfl⟩ | ⟨q, v, rfl, hv, rfl⟩ | ⟨hjump, hip⟩ | ⟨rfl, rfl⟩ := hcases
  · have hhalt : i ≠ .halt := fun e => exec_halt_ne_raise (e ▸ h)
    exact ⟨fun _ => rfl, rfl, rfl, rfl, .inl rfl, .inr (.inr ⟨rfl, ⟨k, rfl⟩, rfl, hhalt⟩)⟩
  · cases hdst
  · cases hd.symm.trans hdst
  · cases hdst
  · obtain rfl : q = p1 := by simpa using hi
    exact ⟨fun _ => rfl, rfl, rfl, rfl, .inr ⟨rfl, v, hv, rfl⟩, .inl ⟨rfl, rfl, nofun⟩⟩
  · have hhalt : i ≠ .halt := by
      rintro rfl
      simp [Instr.op] at hjump
    obtain ⟨target, rfl⟩ | rfl := hip <;>
      exact ⟨fun _ => rfl, rfl, rfl, rfl, .inl rfl, .inl ⟨rfl, rfl, hhalt⟩⟩
  · exact ⟨fun _ => rfl, rfl, rfl, rfl, .inl rfl, .inr (.inl ⟨rfl, rfl, rfl⟩)⟩

end Sys2Proof.Machine
end

section
/-! PROOFS. The cells a step reads (spec/20_memory.md R43). -/

namespace Sys2Proof.Machine

variable {s t u : State} {m : Memory} {a r : Word} {p1 p2 dst : Param} {i : Instr}

/-- `t` from `s`, and `u` from `s` with another memory, are the same effect: every register and
channel ends alike, and each cell is kept in both or ends as the same word. -/
structure State.SameEffect (s : State) (m : Memory) (t u : State) : Prop where
  registers : u.setMem [] = t.setMem []
  cells     : ∀ b, (t.memRead b = s.memRead b ∧ u.memRead b = (s.setMem m).memRead b) ∨
    t.memRead b = u.memRead b

/-- With a given memory, a read depends on `LEN` alone. -/
theorem State.memRead_setMem_congr (hlen : t.len = s.len) (m : Memory) (b : Word) :
    (t.setMem m).memRead b = (s.setMem m).memRead b :=
  State.memRead_congr (s := s.setMem m) (t := t.setMem m) rfl hlen b

/-- The same change of registers and channels on both sides, memory kept. -/
theorem State.SameEffect.of_kept (hmem : t.mem = s.mem) (hlen : t.len = s.len) :
    s.SameEffect m t (t.setMem m) where
  registers := rfl
  cells b := .inl ⟨State.memRead_congr hmem hlen b, State.memRead_setMem_congr hlen m b⟩

/-- The same store on both sides. -/
theorem State.SameEffect.of_store (hb : s.InBounds a) (hmem : t.mem = Memory.write s.mem a.toNat r)
    (hlen : t.len = s.len) : s.SameEffect m t (t.setMem (Memory.write m a.toNat r)) where
  registers := rfl
  cells b := by
    have hb' : (s.setMem m).InBounds a := hb
    have ht : t.memRead b = if b = a then .ok r else s.memRead b :=
      (State.memRead_congr (s := s.setMem _) hmem hlen b).trans (State.memRead_store hb)
    have hu : (t.setMem (Memory.write m a.toNat r)).memRead b =
        if b = a then .ok r else (s.setMem m).memRead b :=
      (State.memRead_setMem_congr hlen _ b).trans (State.memRead_store hb')
    by_cases hba : b = a
    · rw [if_pos hba] at ht hu
      exact .inr (ht.trans hu.symm)
    · rw [if_neg hba] at ht hu
      exact .inl ⟨ht, hu⟩

/-- Resolving a parameter reads its own cell at most. -/
theorem State.resolve_setMem {p : Param}
    (h : ∀ a ∈ readCell p, (s.setMem m).memRead a = s.memRead a) :
    (s.setMem m).resolve p = s.resolve p := by
  obtain ⟨mode, raw⟩ := p
  cases mode with
  | immediate => rfl
  | position => exact h raw (List.mem_singleton.2 rfl)

/-- The shared routine of Add, Multiply, LessThan and Equals reads its two operands. -/
theorem State.settle_binary_sameEffect {o : Op} {f : Word → Word → Except FaultKind Word}
    (h : ∀ a ∈ readCell p1 ++ readCell p2, (s.setMem m).memRead a = s.memRead a) :
    ∃ t u, s.settle (s.binary o f p1 p2 dst) = .next t ∧
      (s.setMem m).settle ((s.setMem m).binary o f p1 p2 dst) = .next u ∧ s.SameEffect m t u := by
  obtain ⟨h1, h2⟩ := List.forall_mem_append.1 h
  have h1 := State.resolve_setMem h1
  have h2 := State.resolve_setMem h2
  cases hr : s.binary o f p1 p2 dst with
  | error k =>
    have hr' : (s.setMem m).binary o f p1 p2 dst = .error k := by
      rw [State.binary_error, h1, h2]
      exact State.binary_error.1 hr
    exact ⟨_, _, rfl, State.settle_binary_of_error hr', .of_kept rfl rfl⟩
  | ok t =>
    obtain ⟨x, y, r, hx, hy, hf, hb, rfl⟩ := State.binary_ok.1 hr
    rw [← h1] at hx
    rw [← h2] at hy
    exact ⟨_, _, rfl, State.settle_binary_of_compute_ok hx hy hf hb, .of_store hb rfl rfl⟩

/-- A jump reads its condition, and its target if it fires. -/
theorem State.settle_jump_sameEffect {o : Op} {fires : Word → Bool}
    (h : ∀ a ∈ readCell p1 ++ s.targetCell fires p1 p2, (s.setMem m).memRead a = s.memRead a) :
    ∃ t u, s.settle (s.jump o fires p1 p2) = .next t ∧
      (s.setMem m).settle ((s.setMem m).jump o fires p1 p2) = .next u ∧ s.SameEffect m t u := by
  obtain ⟨h1, h2⟩ := List.forall_mem_append.1 h
  have h1 := State.resolve_setMem h1
  cases hc : s.resolve p1 with
  | error k =>
    exact ⟨_, _, State.settle_jump_of_condition_error hc,
      State.settle_jump_of_condition_error (h1.trans hc), .of_kept rfl rfl⟩
  | ok c =>
    have hc' := h1.trans hc
    cases hf : fires c with
    | false =>
      exact ⟨_, _, State.settle_jump_of_not_fires hc hf, State.settle_jump_of_not_fires hc' hf,
        .of_kept rfl rfl⟩
    | true =>
      rw [State.targetCell, hc] at h2
      simp only [hf, if_true] at h2
      have h2 := State.resolve_setMem h2
      cases ht : s.resolve p2 with
      | error k =>
        exact ⟨_, _, State.settle_jump_of_target_error hc hf ht,
          State.settle_jump_of_target_error hc' hf (h2.trans ht), .of_kept rfl rfl⟩
      | ok target =>
        exact ⟨_, _, State.settle_jump_of_fires hc hf ht,
          State.settle_jump_of_fires hc' hf (h2.trans ht), .of_kept rfl rfl⟩

theorem exec_output_sameEffect
    (h : ∀ a ∈ readCell p1, (s.setMem m).memRead a = s.memRead a) :
    ∃ t u, exec (.output p1) s = .next t ∧ exec (.output p1) (s.setMem m) = .next u ∧
      s.SameEffect m t u := by
  have h1 := State.resolve_setMem h
  cases hv : s.resolve p1 with
  | error k =>
    exact ⟨_, _, exec_output_of_error hv, exec_output_of_error (h1.trans hv), .of_kept rfl rfl⟩
  | ok v => exact ⟨_, _, exec_output_of_ok hv, exec_output_of_ok (h1.trans hv), .of_kept rfl rfl⟩

theorem exec_input_sameEffect (dst : Param) (s : State) (m : Memory) :
    ∃ t u, exec (.input dst) s = .next t ∧ exec (.input dst) (s.setMem m) = .next u ∧
      s.SameEffect m t u := by
  cases hq : s.inq with
  | nil =>
    exact ⟨_, _, exec_input_of_inq_nil hq, exec_input_of_inq_nil (s := s.setMem m) hq,
      .of_kept rfl rfl⟩
  | cons v rest =>
    by_cases hb : s.InBounds (writeAddr dst)
    · exact ⟨_, _, inputResult dst s v rest hq hb, inputResult dst (s.setMem m) v rest hq hb,
        .of_store hb rfl rfl⟩
    · exact ⟨_, _, inputBadDestination dst s v rest hq hb,
        inputBadDestination dst (s.setMem m) v rest hq hb, .of_kept rfl rfl⟩

/-- The execute phase reads no cell but its operand cells. -/
theorem exec_sameEffect (h : ∀ a ∈ s.operandCells i, (s.setMem m).memRead a = s.memRead a) :
    ∃ t u, exec i s = .next t ∧ exec i (s.setMem m) = .next u ∧ s.SameEffect m t u := by
  cases i with
  | add | multiply | lessThan | equals => exact State.settle_binary_sameEffect h
  | jumpIfTrue | jumpIfFalse => exact State.settle_jump_sameEffect h
  | input dst => exact exec_input_sameEffect dst s m
  | output => exact exec_output_sameEffect h
  | halt => exact ⟨_, _, rfl, rfl, .of_kept rfl rfl⟩

/-- Settles O24: with the same words at `IP` both steps execute the same instruction. -/
theorem stepReadsOnlyItsCells : Obligations.StepReadsOnlyItsCells := by
  unfold Obligations.StepReadsOnlyItsCells
  intro s m ir hs hir hwords hcells
  have hir' : (s.setMem m).decodeAt Config.opset (s.setMem m).ip = .ok ir :=
    State.decodeAt_congr hir hwords
  obtain ⟨t, u, ht, hu, hregisters, hsame⟩ := exec_sameEffect hcells
  exact ⟨t, u, (stepUnder_active_ok hs hir).trans ht,
    (stepUnder_active_ok (s := s.setMem m) hs hir').trans hu, hregisters, hsame⟩

end Sys2Proof.Machine
end

section
/-! PROOFS. The host interface (spec/10_state.md R19, R26, R34, R35). -/

namespace Sys2Proof.Machine

variable {s t : State}

/-! ### The codes of `ST` and `ERR` -/

/-- Settles O48: each clause is one row of the tables of codes. -/
theorem portCodes : Obligations.PortCodes := by
  unfold Obligations.PortCodes
  decide

/-- The run state with a code; the reserved code 3 is that of none. -/
def RunState.ofCode? (c : BitVec 2) : Option RunState :=
  if c = 0 then some .active
  else if c = 1 then some .halted
  else if c = 2 then some .faulted
  else none

theorem RunState.ofCode?_code (st : RunState) : RunState.ofCode? st.code = some st := by
  cases st <;> rfl

/-- Different run states have different codes (R19). -/
theorem RunState.code_injective : Function.Injective RunState.code := fun a b h =>
  Option.some.inj (by rw [← RunState.ofCode?_code a, h, RunState.ofCode?_code])

/-- What `ERR` holds, from its code; no fault kind has the codes 6 and 7. -/
def errOfCode (c : BitVec 3) : Option FaultKind :=
  if c = 1 then some .outOfBounds
  else if c = 2 then some .unknownOpcode
  else if c = 3 then some .inputExhausted
  else if c = 4 then some .reservedMode
  else if c = 5 then some .overflow
  else none

theorem errOfCode_errCode (e : Option FaultKind) : errOfCode (errCode e) = e := by
  cases e with
  | none => rfl
  | some k => cases k <;> rfl

/-- Different contents of `ERR` have different codes (R26). -/
theorem errCode_injective : Function.Injective errCode :=
  Function.LeftInverse.injective errOfCode_errCode

/-! ### `push_input` (R35) -/

/-- Settles O51. -/
theorem pushInputRule : Obligations.PushInputRule := by
  unfold Obligations.PushInputRule
  exact fun _ v => ⟨fun hs => State.pushInput_of_active hs v,
    fun hs => State.pushInput_of_not_active hs v⟩

/-! ### `observe` (R34) -/

/-- Reading a cell by its address as an integer is `MemRead` of that address. -/
theorem State.memRead_ok_iff_observeCell {a v : Word} :
    s.memRead a = .ok v ↔ s.observeCell a.toInt = some v := by
  by_cases hb : s.InBounds a
  · have hcell : s.observeCell a.toInt = some (Memory.read s.mem a.toInt.toNat) := if_pos hb
    rw [State.memRead_of_inBounds hb, hcell, toInt_eq_toNat hb.1, Int.toNat_natCast,
      Except.ok.injEq, Option.some.injEq]
  · have hcell : s.observeCell a.toInt = none := if_neg hb
    rw [State.memRead_of_not_inBounds hb, hcell]
    exact ⟨nofun, nofun⟩

/-- The snapshot at `i` is the reading of cell `i`. -/
theorem State.snapshot_getElem? (i : Nat) : s.snapshot[i]? = s.observeCell i := by
  rw [State.snapshot, List.getElem?_map, State.observeCell]
  by_cases hi : i < s.len
  · rw [List.getElem?_range hi, if_pos (by omega)]
    rfl
  · rw [List.getElem?_eq_none (by simpa using hi), if_neg (by omega)]
    rfl

/-- Within the invariant a state is determined by what the host reads of it (D15). -/
theorem State.Inv.eq_of_observe_eq (hs : s.Inv) (ht : t.Inv) (hobs : s.observe = t.observe)
    (hsnap : s.snapshot = t.snapshot) : s = t := by
  injection hobs with hst herr hip hlen hout hinq
  have hst := RunState.code_injective hst
  have herr := errCode_injective herr
  have hmem : s.mem = t.mem := hs.mem_ext ht hlen fun i hi => by
    rw [State.snapshot, State.snapshot, ← hlen] at hsnap
    exact List.map_inj_left.1 hsnap i (List.mem_range.2 hi)
  cases s
  cases t
  exact State.mk.injEq .. ▸ ⟨hmem, hlen, hip, hst, herr, hinq, hout⟩

/-- Settles O52: each reading is the register, channel or cell itself. -/
theorem observeRule : Obligations.ObserveRule := by
  unfold Obligations.ObserveRule
  refine fun s => ⟨⟨rfl, rfl, rfl, rfl, rfl, rfl⟩, fun i hi => ?_,
    fun a v => State.memRead_ok_iff_observeCell, ?_, State.snapshot_getElem?,
    fun t hs ht => hs.eq_of_observe_eq ht⟩
  · exact if_neg (by omega)
  · rw [State.snapshot, List.length_map, List.length_range]

end Sys2Proof.Machine
end
